-- ==== Sys2Proof/Word.lean ====
section
/-! DEFINITION. The widths of bit_packer's values: bits, bytes and command words (spec/00_scope.md R6 to R8). -/

namespace Sys2Proof

/-- R7: a bit is the value 0 or 1, here `false` or `true` (D2: a bit on a wire, never a character). -/
abbrev Bit := Bool

/-- R7: a byte is an 8-bit unsigned value; bit 7 is the most significant. -/
abbrev Byte := BitVec 8

/-- R40: a command is one 16-bit word, presented in parallel (it has no byte order, R33). -/
abbrev CmdWord := BitVec 16

end Sys2Proof
end

