-- ==== Sys2Proof/Config.lean ====
section
/-! DEFINITION. What an implementation of bit_packer fixes (spec/00_scope.md R6) and the values the spec
leaves open (R25). The opaque constants have no body: a statement holds for every value they may have. -/

namespace Sys2Proof

/-- The depth of a FIFO whose least legal depth is known (R6): unbounded, or the least depth plus `k`. So every
value of this type is a legal depth, and every legal depth is a value of it. -/
inductive FifoDepth where
  | unbounded
  | leastPlus (k : Nat)
deriving DecidableEq, Repr, Inhabited

/-- The capacity that a depth stands for, `none` when unbounded. -/
def FifoDepth.capacity (least : Nat) : FifoDepth → Option Nat
  | .unbounded => none
  | .leastPlus k => some (least + k)

/-- The two OPEN parameters of R6. -/
structure Depths where
  /-- `SER_FIFO_DEPTH`, at least 8 bits. -/
  ser : FifoDepth
  /-- `PACK_FIFO_DEPTH`, at least 1 byte. -/
  pack : FifoDepth
deriving DecidableEq, Repr, Inhabited

/-- R6: the least legal `SER_FIFO_DEPTH`. -/
def leastSerDepth : Nat := 8

/-- R6: the least legal `PACK_FIFO_DEPTH`. -/
def leastPackDepth : Nat := 1

/-- The depths of this part: OPEN (R6, D12), log entry 4. -/
opaque Config.depths : Depths

/-- The level of `bo_bit` at an instant while `bo_valid` is 0: unspecified (R25), log entry 5. -/
opaque Config.idleBoBit : Nat → Bit

/-- The value of `yo_byte` at an instant while `yo_valid` is 0: unspecified (R25), log entry 5. -/
opaque Config.idleYoByte : Nat → Byte

end Sys2Proof
end

