-- ==== Sys2Proof/Syntax.lean ====
section
/-! DEFINITION. The commands of bit_packer, one constructor per row of spec/opcode_table.json (spec/30_encoding.md
R42), and the two error causes of decoding (spec/60_exceptions.md R69). -/

namespace Sys2Proof

/-- A legal command (R42). Every operand is an immediate field of the command word (R41). -/
inductive Instr where
  /-- R67: no operation. -/
  | nop
  /-- R51: serialize the byte `d`. -/
  | ser (d : Byte)
  /-- R57: push the low `n` bits of `v`, most significant first; `n` is 1 to 8 and `v` is below `2^n`. -/
  | push (n : Nat) (v : Byte)
  /-- R58: pad and emit the unfinished group. -/
  | flush
  /-- R68: abandon the unfinished group and clear the error record. -/
  | clear
deriving DecidableEq, Repr

/-- R69: why a word is no command. -/
inductive Cause where
  /-- Code 1: the opcode is 0x5 to 0xF. -/
  | illegalOp
  /-- Code 2: the opcode is 0x0 to 0x4 and a reserved bit is 1. -/
  | reservedNonzero
deriving DecidableEq, Repr

/-- R43: what `Decode` answers. -/
inductive Decoded where
  | cmd (i : Instr)
  | error (c : Cause)
deriving DecidableEq, Repr

end Sys2Proof
end

