-- ==== Sys2Proof/Machine/State.lean ====
section
/-! DEFINITION. The state of bit_packer (spec/10_state.md R12 to R19), the model's record of the host's choices and of
the answers it got (R23; log entry 1), and the machine right after reset (R30). -/

namespace Sys2Proof.Machine

open Sys2Proof

/-- Whose turn is next: one event of R23, or the withdrawal of the presented command (R27; log entry 16). Which word a `cmd` turn
transfers is the head of `State.cmds`. -/
inductive Turn where
  /-- `Cmd(w)` for the presented word `w`, enabled when the block accepts it (R27). -/
  | cmd
  /-- `TakeBit`, enabled when BOQ is not empty (R28). -/
  | takeBit
  /-- `TakeByte`, enabled when YOQ is not empty (R28). -/
  | takeByte
  /-- `ReadStatus`, always enabled (R29). -/
  | readStatus
  /-- `Reset`, always enabled (R81). -/
  | reset
  /-- The host withdraws the presented word; it is not executed. R27 names this for a held word; that the host may also
  withdraw a word the block would accept, before its transfer, is the model's DESIGN CHOICE (log entry 16). -/
  | withdraw
deriving DecidableEq, Repr

/-- What an event returned to the host (R23). -/
inductive Answer where
  /-- `TakeBit` returned this bit. -/
  | bit (b : Bit)
  /-- `TakeByte` returned this byte. -/
  | byte (v : Byte)
  /-- `ReadStatus` returned this STATUS word. -/
  | status (w : BitVec 16)
deriving DecidableEq, Repr

/-- The machine. The first five fields are the block (R14 to R18); the last three are the model's own (log entry 1). -/
structure State where
  /-- PACC (R14): the bits of the unfinished group, right-aligned. -/
  pacc : BitVec 7
  /-- PCNT (R15): how many bits the unfinished group has. -/
  pcnt : BitVec 3
  /-- ECAUSE (R16): the cause code of the first command error, or 0. -/
  ecause : BitVec 2
  /-- BOQ (R17): the bit output FIFO, head first. -/
  boq : List Bit
  /-- YOQ (R18): the byte output FIFO, head first. -/
  yoq : List Byte
  /-- The words the host presents on the command port, in its order; the head is on `cmd_word` (R25). -/
  cmds : List CmdWord
  /-- The order in which the host's next events come (R23); when it is empty, the command port acts. -/
  turns : List Turn
  /-- What the events so far returned to the host, oldest first (R23). -/
  answers : List Answer
deriving DecidableEq, Repr

/-- The reasons the block stops. There is none: an error is recorded, never trapped (R72; log entry 8), so the type
has no constructor, which is safe. -/
inductive Fault where
deriving DecidableEq, Repr

/-- The reasons the model has no meaning for a command. -/
inductive Refusal where
  /-- Raised by an arm of `exec` whose command had no meaning yet; no arm raises it now. Safe: the model stops. -/
  | notModelled (mnemonic : String)
deriving DecidableEq, Repr

/-- R30: the reset state. The model's own fields are empty: the host has presented nothing and got nothing. -/
def State.reset : State where
  pacc := 0
  pcnt := 0
  ecause := 0
  boq := []
  yoq := []
  cmds := []
  turns := []
  answers := []

end Sys2Proof.Machine
end

