-- ==== Sys2Proof/Machine/Flags.lean ====
section
/-! DEFINITION. The block's one flag, ERR (spec/10_state.md R22), and the read-only STATUS word (R24). Both are
computed from the state and never stored. -/

namespace Sys2Proof.Machine

open Sys2Proof

/-- R22: ERR is 1 exactly when ECAUSE is not 0. -/
def State.err (s : State) : Bit := decide (s.ecause ≠ 0)

/-- R24: `STATUS = {0b0, ECAUSE, (ECAUSE != 0), 0b0, PCNT, 0b0, PACC}`. -/
def State.status (s : State) : BitVec 16 :=
  (0 : BitVec 1) ++ s.ecause ++ BitVec.ofBool s.err ++ (0 : BitVec 1) ++ s.pcnt ++ (0 : BitVec 1) ++ s.pacc

/-- R69: the code under which a cause is recorded. -/
def causeCode : Cause → BitVec 2
  | .illegalOp => 1
  | .reservedNonzero => 2

end Sys2Proof.Machine
end

