-- ==== Sys2Proof/Machine/BitFunctions.lean ====
section
/-! DEFINITION. The two functions the block realizes, as the spec states them: `bytesToBits` (spec/40_serializer.md R50)
and `bitsToBytes` (spec/41_packer.md R55), and the value of a bit string (spec/30_encoding.md R49). -/

namespace Sys2Proof.Machine

open Sys2Proof

/-- R50: the eight bits of a byte, most significant first. -/
def bits8 (b : Byte) : List Bit :=
  [b.getLsbD 7, b.getLsbD 6, b.getLsbD 5, b.getLsbD 4, b.getLsbD 3, b.getLsbD 2, b.getLsbD 1, b.getLsbD 0]

/-- R50: `bytesToBits(B) = concat(bits8(b) for b in B)`. -/
def bytesToBits (bs : List Byte) : List Bit := bs.flatMap bits8

/-- R8: the string of `k` zero bits. -/
def zeros (k : Nat) : List Bit := List.replicate k false

/-- R55: how many zero bits complete a string of length `len`; 0 when it is already a multiple of 8. -/
def pad (len : Nat) : Nat := if len % 8 ≠ 0 then 8 - len % 8 else 0

/-- R49: `value(s)`, the sum over k of `s[k] * 2^(L-1-k)`: the first bit is the most significant. -/
def bitsValue : List Bit → Nat
  | [] => 0
  | b :: rest => b.toNat * 2 ^ rest.length + bitsValue rest

/-- R55: a group of 8 bits as an unsigned integer, its first bit bit 7; on 8 bits R55's sum is R49's value. -/
def byteOf (g : List Bit) : Byte := BitVec.ofNat 8 (bitsValue g)

/-- R55, step 2: the group `t[8j .. 8j+8)`. -/
def groupAt (t : List Bit) (j : Nat) : List Bit := (t.drop (8 * j)).take 8

/-- R55, steps 2 and 3: the bytes of the complete groups of `t`, in order. -/
def groupBytes (t : List Bit) : List Byte := (List.range (t.length / 8)).map fun j => byteOf (groupAt t j)

/-- R55: pad to a multiple of 8, partition into groups, emit each group as a byte. -/
def bitsToBytes (s : List Bit) : List Byte := groupBytes (s ++ zeros (pad s.length))

end Sys2Proof.Machine
end

