-- ==== Sys2Proof/Machine/Operands.lean ====
section
/-! DEFINITION. The order in which the bits of an operand enter the datapaths (spec/20_memory.md R33,
spec/30_encoding.md R41). The fields themselves are taken from the word in Decode.lean; no command names a register
(spec/10_state.md R20), so these are all the operand forms. -/

namespace Sys2Proof.Machine

open Sys2Proof

/-- SER (R51): the bits of the operand byte, bit 7 first. -/
def serBits (d : Byte) : List Bit := bits8 d

/-- PUSH (R41, R57): the bits `v[n-1], v[n-2], ..., v[0]`, most significant first. -/
def pushBits : Nat → Byte → List Bit
  | 0, _ => []
  | k + 1, v => v.getLsbD k :: pushBits k v

end Sys2Proof.Machine
end

