-- ==== Sys2Proof/Machine/Ops.lean ====
section
/-! DEFINITION. The shared operations: the output primitives (spec/10_state.md R17, R18), the accumulator
(spec/41_packer.md R56), recording a command error (spec/60_exceptions.md R70), acceptance (spec/10_state.md R27) and the
transfer of a command (R25). -/

namespace Sys2Proof.Machine

open Sys2Proof

/-- R17: `BitOut(b)`, append a bit at the tail of BOQ. -/
def State.bitOut (s : State) (b : Bit) : State := { s with boq := s.boq ++ [b] }

/-- R18: `ByteOut(v)`, append a byte at the tail of YOQ. -/
def State.byteOut (s : State) (v : Byte) : State := { s with yoq := s.yoq ++ [v] }

/-- Write the packer's two registers. -/
def State.withPacker (s : State) (acc : BitVec 7) (cnt : BitVec 3) : State := { s with pacc := acc, pcnt := cnt }

/-- Write ECAUSE. -/
def State.withEcause (s : State) (code : BitVec 2) : State := { s with ecause := code }

/-- R56: the 8-bit value `(zext_8(PACC) << 1) + b`. -/
def State.shiftedIn (s : State) (b : Bit) : Byte :=
  (s.pacc.setWidth 8 <<< 1) + (BitVec.ofBool b).setWidth 8

/-- R56: `Push1(b)`, shift one bit into the accumulator and emit the group when it completes. -/
def State.push1 (s : State) (b : Bit) : State :=
  if s.pcnt.toNat + 1 = 8 then (s.byteOut (s.shiftedIn b)).withPacker 0 0
  else s.withPacker ((s.shiftedIn b).setWidth 7) (BitVec.ofNat 3 (s.pcnt.toNat + 1))

/-- R57: `Push1` for each bit in order. -/
def State.pushAll (s : State) (bits : List Bit) : State := bits.foldl State.push1 s

/-- R51: `BitOut` for each bit in order. -/
def State.bitOutAll (s : State) (bits : List Bit) : State := bits.foldl State.bitOut s

/-- R58: the held bits followed by `8 - PCNT` zero bits, `(zext_8(PACC) << (8 - PCNT))[7:0]`. -/
def State.paddedGroup (s : State) : Byte := s.pacc.setWidth 8 <<< (8 - s.pcnt.toNat)

/-- R58: complete the unfinished group with zero bits and emit it; nothing at a group boundary. -/
def State.flushGroup (s : State) : State :=
  if s.pcnt ≠ 0 then (s.byteOut s.paddedGroup).withPacker 0 0 else s

/-- R68: abandon the unfinished group and clear the error record; the FIFOs stay. -/
def State.clearRegisters (s : State) : State := (s.withPacker 0 0).withEcause 0

/-- R70: `raise CmdError(cause)`: the block's only exception. The first cause since reset or CLEAR is kept; nothing
else changes, nothing is saved and no control is transferred (R72), so there is no return beside it. -/
def State.raiseCmdError (s : State) (c : Cause) : State :=
  if s.ecause = 0 then s.withEcause (causeCode c) else s

/-- R27: whether a FIFO of this depth that holds `len` elements has `need` free places. A FIFO of the least legal
depth has them when `len + need` is at most that depth, whatever the part's depth is. -/
def fifoHasRoom (least : Nat) (d : FifoDepth) (len need : Nat) : Bool :=
  decide (len + need ≤ least) ||
    match d.capacity least with
    | none => true
    | some cap => decide (len + need ≤ cap)

/-- R27: BOQ has room for `need` more bits. -/
def State.bitRoom (c : Depths) (s : State) (need : Nat) : Bool :=
  fifoHasRoom leastSerDepth c.ser s.boq.length need

/-- R27: YOQ has room for `need` more bytes. -/
def State.byteRoom (c : Depths) (s : State) (need : Nat) : Bool :=
  fifoHasRoom leastPackDepth c.pack s.yoq.length need

/-- R27, SER: `free(BOQ) >= 8`. -/
def State.serReady (c : Depths) (s : State) : Bool := s.bitRoom c 8

/-- R27, PUSH: a free byte if the push completes a group. -/
def State.pushReady (c : Depths) (s : State) (n : Nat) : Bool :=
  if s.pcnt.toNat + n ≥ 8 then s.byteRoom c 1 else true

/-- R27, FLUSH: a free byte if there is an unfinished group. -/
def State.flushReady (c : Depths) (s : State) : Bool :=
  if s.pcnt ≠ 0 then s.byteRoom c 1 else true

/-- The presented word leaves the command port: the host drives the next one, if any (R25; log entry 1). -/
def State.dropCmd (s : State) : State := { s with cmds := s.cmds.tail }

/-- The transfer of a command (R23, R25, R27): when the block is ready for it, its whole effect happens at once and
the word leaves the port; otherwise it is held, with no effect, and stays presented. -/
def issue (ready : Bool) (effect : State → State) (s : State) : Host.Outcome State Fault Refusal :=
  if ready then .next (effect s).dropCmd else .next s

end Sys2Proof.Machine
end

