-- ==== Sys2Proof/Machine/Control.lean ====
section
/-! DEFINITION. The control commands NOP and CLEAR (spec/42_control.md R67, R68) and the words that are no command
(spec/60_exceptions.md R70). -/

namespace Sys2Proof.Machine

open Sys2Proof

/-- R67: no effect; always accepted. -/
def execNop (s : State) : Host.Outcome State Fault Refusal := issue true (fun t => t) s

/-- R68: PACC, PCNT and ECAUSE become 0; always accepted. -/
def execClear (s : State) : Host.Outcome State Fault Refusal := issue true State.clearRegisters s

/-- R70: a word that decodes to `Error(cause)` is always accepted and only records its cause. -/
def execError (c : Cause) (s : State) : Host.Outcome State Fault Refusal :=
  issue true (fun t => t.raiseCmdError c) s

end Sys2Proof.Machine
end

