-- ==== Sys2Proof/Machine/Packer.lean ====
section
/-! DEFINITION. PUSH and FLUSH, the commands of the packer and its zero-padding aligner (spec/41_packer.md R57, R58). -/

namespace Sys2Proof.Machine

open Sys2Proof

/-- R57: `for k from n-1 down to 0: Push1(v[k])`. -/
def State.pushField (s : State) (n : Nat) (v : Byte) : State := s.pushAll (pushBits n v)

/-- R57 in a part with the depths `c`: held while the push completes a group and YOQ is full. -/
def pushAt (c : Depths) (n : Nat) (v : Byte) (s : State) : Host.Outcome State Fault Refusal :=
  issue (s.pushReady c n) (fun t => t.pushField n v) s

/-- R58 in a part with the depths `c`: held while there is an unfinished group and YOQ is full. -/
def flushAt (c : Depths) (s : State) : Host.Outcome State Fault Refusal :=
  issue (s.flushReady c) State.flushGroup s

/-- R57: PUSH. -/
def execPush (n : Nat) (v : Byte) (s : State) : Host.Outcome State Fault Refusal := pushAt Config.depths n v s

/-- R58: FLUSH. -/
def execFlush (s : State) : Host.Outcome State Fault Refusal := flushAt Config.depths s

end Sys2Proof.Machine
end

