-- ==== Sys2Proof/Machine/Serializer.lean ====
section
/-! DEFINITION. SER, the serializer's command (spec/40_serializer.md R51). -/

namespace Sys2Proof.Machine

open Sys2Proof

/-- R51: `for k from 7 down to 0: BitOut(d[k])`. -/
def State.serialize (s : State) (d : Byte) : State := s.bitOutAll (serBits d)

/-- R51 in a part with the depths `c`: held until 8 bits of BOQ are free. -/
def serAt (c : Depths) (d : Byte) (s : State) : Host.Outcome State Fault Refusal :=
  issue (s.serReady c) (fun t => t.serialize d) s

/-- R51: SER. -/
def execSer (d : Byte) (s : State) : Host.Outcome State Fault Refusal := serAt Config.depths d s

end Sys2Proof.Machine
end

