-- ==== Sys2Proof/Machine/Dispatch.lean ====
section
/-! DEFINITION. One arm per command (spec/30_encoding.md R42). -/

namespace Sys2Proof.Machine

open Sys2Proof

def exec (i : Instr) (s : State) : Host.Outcome State Fault Refusal :=
  match i with
  | .nop => Sys2Proof.Machine.execNop s
  | .ser d => Sys2Proof.Machine.execSer d s
  | .push n v => Sys2Proof.Machine.execPush n v s
  | .flush => Sys2Proof.Machine.execFlush s
  | .clear => Sys2Proof.Machine.execClear s

end Sys2Proof.Machine
end

