-- ==== Sys2Proof/WellFormed.lean ====
section
/-! DEFINITION. Which commands have an encoding: the range checks of spec/30_encoding.md R48. -/

namespace Sys2Proof

/-- R48: `PUSH n, v` has `1 <= n <= 8` and `0 <= v < 2^n`; the other operands have the width of their field. -/
def Instr.wellFormed : Instr → Bool
  | .nop => true
  | .ser _ => true
  | .push n v => decide (1 ≤ n) && decide (n ≤ 8) && decide (v.toNat < 2 ^ n)
  | .flush => true
  | .clear => true

end Sys2Proof
end

