-- ==== Sys2Proof/Decode.lean ====
section
/-! DEFINITION. From command words to commands and back (spec/30_encoding.md R40 to R47). Decoding is total on the
65536 words, reads no state, and names the cause of every word it rejects. -/

namespace Sys2Proof

/-- R40: the field OP, `w[15:12]`. -/
def opField (w : CmdWord) : BitVec 4 := w.extractLsb' 12 4

/-- R40: the field N, `w[11:8]`. -/
def nField (w : CmdWord) : BitVec 4 := w.extractLsb' 8 4

/-- R40: the field D, `w[7:0]`. -/
def dField (w : CmdWord) : Byte := w.extractLsb' 0 8

/-- `w[11:0]`: the reserved bits of NOP, FLUSH and CLEAR (R42). -/
def lowField (w : CmdWord) : BitVec 12 := w.extractLsb' 0 12

/-- R40: the reserved bit R of PUSH, `w[11]`. -/
def pushReservedBit (w : CmdWord) : Bool := w.getLsbD 11

/-- R41: the bit count of PUSH, `n = w[10:8] + 1`. -/
def pushCount (w : CmdWord) : Nat := (w.extractLsb' 8 3).toNat + 1

/-- R41: the bits of PUSH, `w[n-1:0]`, as a byte with zero high bits. -/
def pushBitsField (n : Nat) (w : CmdWord) : Byte := BitVec.ofNat 8 ((dField w).toNat % 2 ^ n)

/-- `D[7:n]`: the reserved bits of D in a PUSH of `n` bits; empty, so 0, when `n = 8` (R7, R41). -/
def pushHighBits (n : Nat) (w : CmdWord) : Byte := dField w >>> n

/-- A command without operand: every bit below OP is reserved and must be 0 (R42, R44). -/
def decodeBare (i : Instr) (w : CmdWord) : Decoded :=
  if lowField w = 0 then .cmd i else .error .reservedNonzero

/-- R43, OP 0x1. -/
def decodeSer (w : CmdWord) : Decoded :=
  if nField w = 0 then .cmd (.ser (dField w)) else .error .reservedNonzero

/-- R43, OP 0x2: `w[11]` and `D[7:n]` are reserved. -/
def decodePush (w : CmdWord) : Decoded :=
  if pushReservedBit w || decide (pushHighBits (pushCount w) w ≠ 0) then .error .reservedNonzero
  else .cmd (.push (pushCount w) (pushBitsField (pushCount w) w))

/-- R43: `Decode`, one arm per opcode of R42; the opcodes 0x5 to 0xF are illegal (R45). -/
def decode (w : CmdWord) : Decoded :=
  match (opField w).toNat with
  | 0 => decodeBare .nop w
  | 1 => decodeSer w
  | 2 => decodePush w
  | 3 => decodeBare .flush w
  | 4 => decodeBare .clear w
  | _ => .error .illegalOp

/-- R42: the opcode of a command. -/
def Instr.opcode : Instr → BitVec 4
  | .nop => 0x0
  | .ser _ => 0x1
  | .push _ _ => 0x2
  | .flush => 0x3
  | .clear => 0x4

/-- R42, R48: the word of a well-formed command. -/
def encode (i : Instr) : CmdWord :=
  match i with
  | .nop => i.opcode ++ (0 : BitVec 12)
  | .ser d => i.opcode ++ (0 : BitVec 4) ++ d
  | .push n v => i.opcode ++ (0 : BitVec 1) ++ BitVec.ofNat 3 (n - 1) ++ v
  | .flush => i.opcode ++ (0 : BitVec 12)
  | .clear => i.opcode ++ (0 : BitVec 12)

/-- The decoder on a row of spec/opcode_table.json: `nbits` bits of `w` are given and the bits above them are 0. The
command word is presented in parallel, so its bits are laid out as they are numbered (R33, R40; log entry 15). -/
def tableWord (nbits w : Nat) : CmdWord := BitVec.ofNat 16 (w % 2 ^ nbits)

/-- The instruction the decoder reads from a table word, if it is one. -/
def decodeTableWord (nbits w : Nat) : Option Instr :=
  match decode (tableWord nbits w) with
  | .cmd i => some i
  | .error _ => none

end Sys2Proof
end

