-- ==== Sys2Proof/Machine/Ports.lean ====
section
/-! DEFINITION. Acceptance of a word (spec/10_state.md R27) and the block's output ports (R25). -/

namespace Sys2Proof.Machine

open Sys2Proof

/-- R27: whether the block has room for what the command would write. -/
def State.readyFor (c : Depths) (s : State) : Instr → Bool
  | .nop => true
  | .ser _ => s.serReady c
  | .push n _ => s.pushReady c n
  | .flush => s.flushReady c
  | .clear => true

/-- R27: `Accept`, on the decoded word; a word that is no command is always accepted. -/
def State.acceptsDecoded (c : Depths) (s : State) : Decoded → Bool
  | .cmd i => s.readyFor c i
  | .error _ => true

/-- R27: `Accept(w, S)`. -/
def State.accepts (c : Depths) (s : State) (w : CmdWord) : Bool := s.acceptsDecoded c (decode w)

/-- R25: the word on `cmd_word`, if `cmd_valid` is 1. -/
def State.presented (s : State) : Option CmdWord := s.cmds.head?

/-- R25: `cmd_valid`. -/
def State.cmdValid (s : State) : Bit := s.presented.isSome

/-- R25: `cmd_ready`, for the word on `cmd_word`. -/
def State.cmdReady (s : State) (w : CmdWord) : Bit := s.accepts Config.depths w

/-- R25: `bo_valid`. -/
def State.boValid (s : State) : Bit := !s.boq.isEmpty

/-- R25: `bo_bit` at the instant `t`; a free value while `bo_valid` is 0 (log entry 5). -/
def State.boBit (s : State) (t : Nat) : Bit :=
  match s.boq with
  | [] => Config.idleBoBit t
  | b :: _ => b

/-- R25: `yo_valid`. -/
def State.yoValid (s : State) : Bit := !s.yoq.isEmpty

/-- R25: `yo_byte` at the instant `t`; a free value while `yo_valid` is 0 (log entry 5). -/
def State.yoByte (s : State) (t : Nat) : Byte :=
  match s.yoq with
  | [] => Config.idleYoByte t
  | v :: _ => v

/-- R25: the port `status` is STATUS. -/
def State.statusPort (s : State) : BitVec 16 := s.status

/-- R25: the port `err` is STATUS[12] (R73). -/
def State.errPort (s : State) : Bit := s.status.getLsbD 12

end Sys2Proof.Machine
end

