-- ==== Sys2Proof/Machine/Events.lean ====
section
/-! DEFINITION. The host's events (spec/10_state.md R23) and the order in which they come. -/

namespace Sys2Proof.Machine

open Sys2Proof

/-- R43: the words that are a command run it, the others raise their error (`Exec`, R23). -/
def execDecoded (d : Decoded) (s : State) : Host.Outcome State Fault Refusal :=
  match d with
  | .cmd i => exec i s
  | .error c => execError c s

/-- `Cmd(w)` for the presented word; with nothing presented, nothing happens (R12). -/
def transferCmd (s : State) : Host.Outcome State Fault Refusal :=
  match s.presented with
  | none => .next s
  | some w => execDecoded (decode w) s

/-- An event returns `a` to the host. -/
def State.answer (s : State) (a : Answer) : State := { s with answers := s.answers ++ [a] }

/-- R28: `TakeBit`; it is not enabled, and nothing happens, on an empty BOQ. -/
def State.takeBit (s : State) : State :=
  match s.boq with
  | [] => s
  | b :: rest => ({ s with boq := rest }).answer (.bit b)

/-- R28: `TakeByte`; it is not enabled, and nothing happens, on an empty YOQ. -/
def State.takeByte (s : State) : State :=
  match s.yoq with
  | [] => s
  | v :: rest => ({ s with yoq := rest }).answer (.byte v)

/-- R23, R29: `ReadStatus` returns STATUS and changes nothing of the block. -/
def State.readStatus (s : State) : State := s.answer (.status s.status)

/-- R81: `Reset` sets every piece of the block's state to its reset value; what the host presents, plans and has seen is
the host's and stays (R82; log entry 14). -/
def State.resetBlock (s : State) : State :=
  { s with pacc := State.reset.pacc, pcnt := State.reset.pcnt, ecause := State.reset.ecause,
           boq := State.reset.boq, yoq := State.reset.yoq }

/-- R23: whether the event of a turn is enabled. A withdrawal needs a presented word; that it need not be a held one
(R27) is the model's DESIGN CHOICE (log entry 16). -/
def State.enabled (s : State) : Turn → Bool
  | .cmd =>
    match s.presented with
    | none => false
    | some w => s.accepts Config.depths w
  | .takeBit => s.boValid
  | .takeByte => s.yoValid
  | .readStatus => true
  | .reset => true
  | .withdraw => s.cmdValid

/-- The event of one turn (R23). A turn whose event is not enabled passes without one (DESIGN CHOICE, log entry 2). A
withdraw turn drops the presented word, held (R27) or not (DESIGN CHOICE, log entry 16). -/
def runTurn (t : Turn) (s : State) : Host.Outcome State Fault Refusal :=
  match t with
  | .cmd => transferCmd s
  | .takeBit => .next s.takeBit
  | .takeByte => .next s.takeByte
  | .readStatus => .next s.readStatus
  | .reset => .next s.resetBlock
  | .withdraw => .next s.dropCmd

/-- Whose turn is next: the host's choice (R23), the command port's when the host has planned none (log entry 3). -/
def State.nextTurn (s : State) : Turn := s.turns.headD .cmd

/-- The next turn is used up. -/
def State.dropTurn (s : State) : State := { s with turns := s.turns.tail }

/-- One event of the host on the block. -/
def runNextTurn (s : State) : Host.Outcome State Fault Refusal := runTurn s.nextTurn s.dropTurn

/-- The host presents `w` before the words it already presents, and the command port acts next. -/
def State.present (s : State) (w : CmdWord) : State :=
  { s with cmds := w :: s.cmds,
           turns := if s.nextTurn = .cmd then s.turns else .cmd :: s.turns }

end Sys2Proof.Machine
end

