-- ==== Sys2Proof/Machine/Step.lean ====
section
/-! DEFINITION. One step of the machine: one event of the host (spec/10_state.md R12, R23). -/

namespace Sys2Proof.Machine

open Sys2Proof

/-- R23: the next event of the host's choosing happens. -/
def step (s : State) : Host.Outcome State Fault Refusal := runNextTurn s

/-- The word of a table row is presented on the command port and the port acts next, so that the next step runs it
(log entry 1 says how a program comes to run from reset). -/
def State.withFetchWord (s : State) (nbits w : Nat) : State := s.present (tableWord nbits w)

end Sys2Proof.Machine
end

