-- ==== Sys2Proof/Machine/Assembler.lean ====
section
/-! DEFINITION. The assembler syntax and the pseudo-instructions (spec/30_encoding.md R48, R49). Source text is a list
of characters; what the rule leaves open of it (blanks, letter case) is fixed in log entry 12. -/

namespace Sys2Proof.Machine

open Sys2Proof

/-- One line of assembler source: the forms of R48, then the pseudo-instructions of R49. Operands are as written,
before any range check. -/
inductive AsmLine where
  | nop
  | ser (d : Nat)
  | push (n v : Nat)
  | flush
  | clear
  /-- `.word w`: the only way to write an error word. -/
  | word (w : Nat)
  | pbit (b : Nat)
  | pbyte (b : Nat)
  | pbits (s : List Bit)
  | sers (bs : List Nat)
  | pack (s : List Bit)
deriving DecidableEq, Repr

/-- R48: a command with its operands in range; an operand out of range is refused, not truncated. -/
def checkedWord (inRange : Bool) (w : Nat) : Option CmdWord :=
  if inRange then some (BitVec.ofNat 16 w) else none

/-- R48: `SER d`. -/
def asmSer (d : Nat) : Option CmdWord := checkedWord (decide (d ≤ 255)) (0x1000 + d)

/-- R48: `PUSH n, v`. -/
def asmPush (n v : Nat) : Option CmdWord :=
  checkedWord (decide (1 ≤ n) && decide (n ≤ 8) && decide (v < 2 ^ n)) (0x2000 + (n - 1) * 256 + v)

/-- R48: `.word w`. -/
def asmRaw (w : Nat) : Option CmdWord := checkedWord (decide (w ≤ 0xFFFF)) w

/-- All the words, or none when one of them is refused. -/
def collect : List (Option CmdWord) → Option (List CmdWord)
  | [] => some []
  | none :: _ => none
  | some w :: rest => (collect rest).map (w :: ·)

/-- R49: `PACK "s"`: the complete groups as `PUSH 8`, the remaining bits as one PUSH, then FLUSH. -/
def packWords (s : List Bit) : List (Option CmdWord) :=
  (List.range (s.length / 8)).map (fun j => asmPush 8 (bitsValue (groupAt s j)))
    ++ (if s.length % 8 ≠ 0 then [asmPush (s.length % 8) (bitsValue (s.drop (s.length - s.length % 8)))] else [])
    ++ [some 0x3000]

/-- R48, R49: the words of one line, or none when an operand is out of range. -/
def assemble : AsmLine → Option (List CmdWord)
  | .nop => some [0x0000]
  | .ser d => collect [asmSer d]
  | .push n v => collect [asmPush n v]
  | .flush => some [0x3000]
  | .clear => some [0x4000]
  | .word w => collect [asmRaw w]
  | .pbit b => collect [asmPush 1 b]
  | .pbyte b => collect [asmPush 8 b]
  | .pbits s => collect [asmPush s.length (bitsValue s)]
  | .sers bs => collect (bs.map asmSer)
  | .pack s => collect (packWords s)

/-- R48: the line of a command. -/
def lineOf : Instr → AsmLine
  | .nop => .nop
  | .ser d => .ser d.toNat
  | .push n v => .push n v.toNat
  | .flush => .flush
  | .clear => .clear

/-- R48: a word that is no command prints as `.word`. -/
def disassemble (w : CmdWord) : AsmLine :=
  match decode w with
  | .cmd i => lineOf i
  | .error _ => .word w.toNat

/-! Source text (R48): one command per line, mnemonic first, operands separated by commas, `;` starting a comment,
numbers decimal, `0x` hexadecimal or `0b` binary. -/

/-- The value of a digit in the given base, if the character is one. -/
def digitValue (base : Nat) (ch : Char) : Option Nat :=
  let c := ch.toNat
  let v := if 48 ≤ c ∧ c ≤ 57 then c - 48
    else if 65 ≤ c ∧ c ≤ 70 then c - 55
    else if 97 ≤ c ∧ c ≤ 102 then c - 87
    else base
  if v < base then some v else none

/-- The digits after `acc`, most significant first. -/
def digitsFrom (base acc : Nat) : List Char → Option Nat
  | [] => some acc
  | ch :: rest =>
    match digitValue base ch with
    | some v => digitsFrom base (acc * base + v) rest
    | none => none

/-- At least one digit. -/
def digits (base : Nat) : List Char → Option Nat
  | [] => none
  | ds => digitsFrom base 0 ds

/-- A number: `0x` hexadecimal, `0b` binary, else decimal. -/
def parseNumber : List Char → Option Nat
  | '0' :: 'x' :: ds => digits 16 ds
  | '0' :: 'b' :: ds => digits 2 ds
  | ds => digits 10 ds

/-- The double quote. -/
def quoteChar : Char := Char.ofNat 34

/-- The bits up to the closing quote, which ends the operand. -/
def bitsToQuote : List Char → Option (List Bit)
  | [] => none
  | ch :: rest =>
    if ch = quoteChar then (if rest = [] then some [] else none)
    else if ch = '0' then (bitsToQuote rest).map (false :: ·)
    else if ch = '1' then (bitsToQuote rest).map (true :: ·)
    else none

/-- A bit string between double quotes, first bit leftmost (R10). -/
def parseBits : List Char → Option (List Bit)
  | [] => none
  | ch :: rest => if ch = quoteChar then bitsToQuote rest else none

/-- A blank between words: space, tab or carriage return. -/
def isBlank (ch : Char) : Bool := ch == ' ' || ch.toNat == 9 || ch.toNat == 13

/-- The text without leading and trailing blanks. -/
def trim (cs : List Char) : List Char := ((cs.dropWhile isBlank).reverse.dropWhile isBlank).reverse

/-- The parts between commas. -/
def splitCommas : List Char → List (List Char)
  | [] => [[]]
  | ch :: rest =>
    match splitCommas rest with
    | [] => [[ch]]
    | part :: parts => if ch = ',' then [] :: part :: parts else (ch :: part) :: parts

/-- The operands of a line; none when nothing follows the mnemonic. -/
def operandsOf (cs : List Char) : List (List Char) :=
  match trim cs with
  | [] => []
  | text => (splitCommas text).map trim

/-- All numbers, or none when one operand is no number. -/
def parseNumbers : List (List Char) → Option (List Nat)
  | [] => some []
  | o :: rest =>
    match parseNumber o, parseNumbers rest with
    | some v, some vs => some (v :: vs)
    | _, _ => none

/-- A form with no operand. -/
def form0 (line : AsmLine) (ops : List (List Char)) : Option AsmLine := if ops = [] then some line else none

/-- A form with one number. -/
def form1 (line : Nat → AsmLine) (ops : List (List Char)) : Option AsmLine :=
  match parseNumbers ops with
  | some [a] => some (line a)
  | _ => none

/-- A form with two numbers. -/
def form2 (line : Nat → Nat → AsmLine) (ops : List (List Char)) : Option AsmLine :=
  match parseNumbers ops with
  | some [a, b] => some (line a b)
  | _ => none

/-- A form with a bit string. -/
def formBits (line : List Bit → AsmLine) (ops : List (List Char)) : Option AsmLine :=
  match ops with
  | [o] => (parseBits o).map line
  | _ => none

/-- A form with one or more numbers. -/
def formMany (line : List Nat → AsmLine) (ops : List (List Char)) : Option AsmLine :=
  match parseNumbers ops with
  | some (a :: rest) => some (line (a :: rest))
  | _ => none

/-- R48, R49: the form that a mnemonic names. -/
def parseForm (mnemonic : List Char) (ops : List (List Char)) : Option AsmLine :=
  if mnemonic = ['N', 'O', 'P'] then form0 .nop ops
  else if mnemonic = ['S', 'E', 'R'] then form1 .ser ops
  else if mnemonic = ['P', 'U', 'S', 'H'] then form2 .push ops
  else if mnemonic = ['F', 'L', 'U', 'S', 'H'] then form0 .flush ops
  else if mnemonic = ['C', 'L', 'E', 'A', 'R'] then form0 .clear ops
  else if mnemonic = ['.', 'w', 'o', 'r', 'd'] then form1 .word ops
  else if mnemonic = ['P', 'B', 'I', 'T'] then form1 .pbit ops
  else if mnemonic = ['P', 'B', 'Y', 'T', 'E'] then form1 .pbyte ops
  else if mnemonic = ['P', 'B', 'I', 'T', 'S'] then formBits .pbits ops
  else if mnemonic = ['S', 'E', 'R', 'S'] then formMany .sers ops
  else if mnemonic = ['P', 'A', 'C', 'K'] then formBits .pack ops
  else none

/-- R48: one line of source, without its end of line. -/
def parseLine (cs : List Char) : Option AsmLine :=
  let text := trim (cs.takeWhile (· ≠ ';'))
  parseForm (text.takeWhile (!isBlank ·)) (operandsOf (text.dropWhile (!isBlank ·)))

/-- The words of one line of source: an empty or comment-only line gives none of them, a malformed one is refused. -/
def assembleText (cs : List Char) : Option (List CmdWord) :=
  if trim (cs.takeWhile (· ≠ ';')) = [] then some [] else (parseLine cs).bind assemble

/-- A hexadecimal digit. -/
def hexDigit (v : Nat) : Char := if v < 10 then Char.ofNat (48 + v) else Char.ofNat (55 + v)

/-- `0x` and the last `k` hexadecimal digits of `v`. -/
def hexText (k v : Nat) : List Char :=
  '0' :: 'x' :: (List.range k).map (fun j => hexDigit (v / 16 ^ (k - 1 - j) % 16))

/-- R48: the text that a disassembler prints for a word. -/
def disassembleText (w : CmdWord) : List Char :=
  match decode w with
  | .cmd .nop => ['N', 'O', 'P']
  | .cmd (.ser d) => ['S', 'E', 'R', ' '] ++ hexText 2 d.toNat
  | .cmd (.push n v) => ['P', 'U', 'S', 'H', ' '] ++ [hexDigit n] ++ [',', ' '] ++ hexText 2 v.toNat
  | .cmd .flush => ['F', 'L', 'U', 'S', 'H']
  | .cmd .clear => ['C', 'L', 'E', 'A', 'R']
  | .error _ => ['.', 'w', 'o', 'r', 'd', ' '] ++ hexText 4 w.toNat

end Sys2Proof.Machine
end

