-- ==== Sys2Proof/Safety.lean ====
section
/-! DEFINITION. The terms in which claims speak of runs: the invariant of spec/10_state.md R26, runs of several events,
the words a run accepts, and what the host has taken from the FIFOs. -/

namespace Sys2Proof.Machine

open Sys2Proof

/-- A FIFO that holds `len` elements is no longer than its depth. -/
def fifoFits (least : Nat) (d : FifoDepth) (len : Nat) : Prop :=
  ∀ cap, d.capacity least = some cap → len ≤ cap

/-- R26: the invariant of the states reachable from reset. (`PCNT <= 7` is its width.) -/
def State.Inv (s : State) : Prop :=
  s.pacc.toNat < 2 ^ s.pcnt.toNat ∧ s.ecause ≠ 3 ∧
    fifoFits leastSerDepth Config.depths.ser s.boq.length ∧
    fifoFits leastPackDepth Config.depths.pack s.yoq.length

/-- `k` steps, stopping at the first that does not answer a next state. -/
def run : Nat → State → Host.Outcome State Fault Refusal
  | 0, s => .next s
  | k + 1, s =>
    match step s with
    | .next t => run k t
    | .fault r => .fault r
    | .refused r => .refused r

/-- The word that the next step transfers, if it transfers one: it is the command port's turn, a word is presented,
and the block accepts it (R25, R27). -/
def State.transfers (s : State) : Option CmdWord :=
  if s.nextTurn = .cmd then s.presented.filter (s.accepts Config.depths) else none

/-- The words that `k` steps accept, in order. -/
def acceptedWords : Nat → State → List CmdWord
  | 0, _ => []
  | k + 1, s =>
    s.transfers.toList ++
      match step s with
      | .next t => acceptedWords k t
      | _ => []

/-- The command that a word is, if it is one. -/
def commandOf (w : CmdWord) : Option Instr :=
  match decode w with
  | .cmd i => some i
  | .error _ => none

/-- The commands among some words, in order. -/
def commandsOf (ws : List CmdWord) : List Instr := ws.filterMap commandOf

/-- The byte that a command serializes. -/
def serializedOf : Instr → List Byte
  | .ser d => [d]
  | _ => []

/-- The bits that a command pushes, in order (R41). -/
def pushedOf : Instr → List Bit
  | .push n v => pushBits n v
  | _ => []

/-- The bytes that the SER commands among some words serialize, in order. -/
def serializedBytes (ws : List CmdWord) : List Byte := (commandsOf ws).flatMap serializedOf

/-- The bits that the PUSH commands among some words push, in order. -/
def pushedBits (ws : List CmdWord) : List Bit := (commandsOf ws).flatMap pushedOf

/-- The bits that the host has taken, oldest first. -/
def State.bitsTaken (s : State) : List Bit :=
  s.answers.filterMap fun
    | .bit b => some b
    | _ => none

/-- The bytes that the host has taken, oldest first. -/
def State.bytesTaken (s : State) : List Byte :=
  s.answers.filterMap fun
    | .byte v => some v
    | _ => none

/-- R44: the words with a defined opcode and a nonzero reserved bit: the low 12 bits for the opcodes 0, 3 and 4, the
field N for SER, bit 11 or `D[7:n]` for PUSH. -/
def reservedWord (w : CmdWord) : Bool :=
  let v := w.toNat
  (v / 4096 == 0 || v / 4096 == 3 || v / 4096 == 4) && v % 4096 != 0 ||
    v / 4096 == 1 && v / 256 % 16 != 0 ||
    v / 4096 == 2 && (v / 2048 % 2 == 1 || v % 256 / 2 ^ (v / 256 % 8 + 1) != 0)

end Sys2Proof.Machine
end

