-- ==== Sys2Proof/Certificates/Slice0/Obligations.lean ====
section
/-! DEFINITION. The statements for the provers. Each is about every state and every operand that meets its hypotheses;
an equation with a next state names every field that changes, so it is also the command's frame. The FIFO depths are the
opaque constant `Config.depths` (log entry 4), so every statement holds for every depth. `cmds := s.cmds.tail` is the
transferred word leaving the command port (log entry 1). -/

open Sys2Proof Sys2Proof.Machine

/-! ### Encoding (spec/30_encoding.md) -/

/-- R40 to R42, R48: decoding the word of any well-formed command gives that command back. -/
def Obligations.DecodeOfEncodeIsTheCommand : Prop :=
  ∀ i : Instr, i.wellFormed = true → decode (encode i) = .cmd i

/-- R42, R43: a command decoded from a word is well-formed, and that word is its only encoding. -/
def Obligations.EncodeOfDecodeIsTheWord : Prop :=
  ∀ (w : CmdWord) (i : Instr), decode w = .cmd i → i.wellFormed = true ∧ encode i = w

/-- R43: the cases of `Decode`, by the value of the word. -/
def Obligations.DecodeFollowsTheOpcodeTable : Prop :=
  ∀ w : CmdWord,
    decode w =
      (let v := w.toNat
       let d := v % 256
       let n := v / 256 % 8 + 1
       if v < 0x1000 then (if v = 0 then .cmd .nop else .error .reservedNonzero)
       else if v < 0x2000 then (if v < 0x1100 then .cmd (.ser (BitVec.ofNat 8 d)) else .error .reservedNonzero)
       else if v < 0x3000 then
         (if 0x2800 ≤ v ∨ 2 ^ n ≤ d then .error .reservedNonzero else .cmd (.push n (BitVec.ofNat 8 d)))
       else if v < 0x4000 then (if v = 0x3000 then .cmd .flush else .error .reservedNonzero)
       else if v < 0x5000 then (if v = 0x4000 then .cmd .clear else .error .reservedNonzero)
       else .error .illegalOp)

/-- R42: which words are legal: NOP, the 256 words of SER, `PUSH n, v` with `v` below `2^n`, FLUSH and CLEAR. -/
def Obligations.LegalWordsAreThoseOfTheMap : Prop :=
  ∀ w : CmdWord,
    (∃ i, decode w = .cmd i) ↔
      w.toNat = 0 ∨ (∃ d, d < 256 ∧ w.toNat = 0x1000 + d) ∨
        (∃ n v, 1 ≤ n ∧ n ≤ 8 ∧ v < 2 ^ n ∧ w.toNat = 0x2000 + (n - 1) * 256 + v) ∨
          w.toNat = 0x3000 ∨ w.toNat = 0x4000

/-- R45: an opcode 0x5 to 0xF is illegal whatever the other bits hold, and the command has no effect beyond recording
the error (code 1, kept only if none is recorded yet). -/
def Obligations.IllegalOpcodesOnlyRecordTheError : Prop :=
  ∀ w : CmdWord, 0x5000 ≤ w.toNat →
    decode w = .error .illegalOp ∧
      ∀ s : State, s.nextTurn = .cmd → s.presented = some w →
        step s = .next { s with ecause := if s.ecause = 0 then 1 else s.ecause,
                                cmds := s.cmds.tail, turns := s.turns.tail }

/-- R44: a reserved encoding decodes to the error RESERVED_NONZERO and only records it (code 2): in particular such a
PUSH pushes nothing. -/
def Obligations.ReservedEncodingsOnlyRecordTheError : Prop :=
  ∀ w : CmdWord, reservedWord w = true →
    decode w = .error .reservedNonzero ∧
      ∀ s : State, s.nextTurn = .cmd → s.presented = some w →
        step s = .next { s with ecause := if s.ecause = 0 then 2 else s.ecause,
                                cmds := s.cmds.tail, turns := s.turns.tail }

/-- R43 on words written out from the encodings of R42 (spec/95_test_vectors.md 2.1). -/
def Obligations.SampleWordsDecodeAsTheirEncodingsSay : Prop :=
  decode 0b0000000000000000 = .cmd .nop ∧ decode 0b0001000001000001 = .cmd (.ser 0x41) ∧
    decode 0b0010000000000001 = .cmd (.push 1 1) ∧ decode 0b0010011111111111 = .cmd (.push 8 0xFF) ∧
      decode 0b0011000000000000 = .cmd .flush ∧ decode 0b0100000000000000 = .cmd .clear

/-- R48, on source lines already read (`AsmLine`, not text): the assembler's word for a command's line is its encoding,
and assembling the line that a word disassembles to gives the word back, error words included. -/
def Obligations.AssemblerInvertsDisassembler : Prop :=
  (∀ i : Instr, i.wellFormed = true → assemble (lineOf i) = some [encode i]) ∧
    ∀ w : CmdWord, assemble (disassemble w) = some [w]

/-- R48, on source text: assembling the text that the disassembler prints for a word gives the word back, error words
included, also with a blank and a comment after it; and a line that is only a comment gives no word. The number style
and the blanks of the text, and the comment-only line, are the model's choice (log entry 12). -/
def Obligations.PrintedTextAssemblesToItsWord : Prop :=
  (∀ w : CmdWord, assembleText (disassembleText w) = some [w]) ∧
    (∀ (w : CmdWord) (comment : List Char), assembleText (disassembleText w ++ ' ' :: ';' :: comment) = some [w]) ∧
    ∀ comment : List Char, assembleText (';' :: comment) = some []

/-- R49: each pseudo-instruction's expansion. `PBIT b` is `PUSH 1, b`, `PBYTE b` is `PUSH 8, b`, `PBITS "s"` is
`PUSH len(s), value(s)`, which pushes the bits of `s`, and `SERS` is one SER for each operand; an operand out of range is
refused. `PACK "s"` is a `PUSH 8` for each complete group, one PUSH of the remaining `len mod 8` bits if there are any,
and FLUSH; its PUSH commands are well-formed and their bits in order are `s`. -/
def Obligations.PseudoInstructionsExpandToTheirCommands : Prop :=
  (∀ b : Nat, assemble (.pbit b) = if b < 2 then some [encode (.push 1 (BitVec.ofNat 8 b))] else none) ∧
    (∀ b : Nat, assemble (.pbyte b) = if b < 256 then some [encode (.push 8 (BitVec.ofNat 8 b))] else none) ∧
    (∀ s : List Bit, assemble (.pbits s) =
      if 1 ≤ s.length ∧ s.length ≤ 8 then some [encode (.push s.length (BitVec.ofNat 8 (bitsValue s)))] else none) ∧
    (∀ s : List Bit, s.length ≤ 8 → pushBits s.length (BitVec.ofNat 8 (bitsValue s)) = s) ∧
    (∀ bs : List Nat, assemble (.sers bs) =
      if ∀ b ∈ bs, b < 256 then some (bs.map fun b => encode (.ser (BitVec.ofNat 8 b))) else none) ∧
    (∀ s : List Bit, assemble (.pack s) =
      some ((List.range (s.length / 8)).map
          (fun j => encode (.push 8 (BitVec.ofNat 8 (bitsValue ((s.drop (8 * j)).take 8)))))
        ++ (if s.length % 8 ≠ 0 then
              [encode (.push (s.length % 8) (BitVec.ofNat 8 (bitsValue (s.drop (s.length - s.length % 8)))))]
            else [])
        ++ [encode .flush])) ∧
    ∀ s : List Bit, ∃ ps : List (Nat × Byte),
      (∀ p ∈ ps, (Instr.push p.1 p.2).wellFormed = true) ∧ ps.flatMap (fun p => pushBits p.1 p.2) = s ∧
        assemble (.pack s) = some (ps.map (fun p => encode (.push p.1 p.2)) ++ [encode .flush])

/-! ### The step -/

/-- R23, R43: when it is the command port's turn and the presented word decodes to a well-formed command, the step is
that command's `exec`, after the turn is used up. -/
def Obligations.StepRunsTheDecodedCommand : Prop :=
  ∀ (s : State) (w : CmdWord) (i : Instr), s.nextTurn = .cmd → s.presented = some w → i.wellFormed = true →
    decode w = .cmd i → step s = exec i { s with turns := s.turns.tail }

/-- R23, R27: on the command port's turn the presented word runs if the block accepts it; otherwise it is held and has
no effect. That a held word's turn passes as a step, which uses the turn and so with no turn planned answers the same
state again, is the model's choice (DESIGN CHOICE, log entries 2 and 3): R27 says only that the event is not enabled and
R88 that the hold lasts. -/
def Obligations.PresentedWordRunsOrIsHeld : Prop :=
  ∀ (s : State) (w : CmdWord), s.nextTurn = .cmd → s.presented = some w →
    step s =
      if s.accepts Config.depths w then execDecoded (decode w) { s with turns := s.turns.tail }
      else .next { s with turns := s.turns.tail }

/-- Every step answers a next state. Of an error word this is R72: an error is recorded, and the block goes on. That the
turn of a held word, of an idle command port, of a take on an empty FIFO or of a withdrawal with nothing presented also
answers a next state, in which nothing of the block has changed, is the model's choice (DESIGN CHOICE, log entries 2 and
3): the spec says only that such an event is not enabled, and 93_implementation_defined.md calls a hold with no drain
stuck. -/
def Obligations.EveryStepGoesOn : Prop := ∀ s : State, ∃ t, step s = .next t

/-- A word placed for the next fetch is the word the next step runs, and its transfer leaves what the host presents and
plans as it was before, but for a turn of the command port that it uses (log entries 1 and 15: the model's choice). -/
def Obligations.FetchWordIsTheNextCommand : Prop :=
  ∀ (s : State) (w : Nat) (i : Instr), decodeTableWord 16 w = some i →
    step (s.withFetchWord 16 w) =
      exec i { s with cmds := BitVec.ofNat 16 w :: s.cmds,
                      turns := if s.nextTurn = .cmd then s.turns.tail else s.turns }

/-- R25: the output ports: the valid outputs, the heads of the FIFOs while they are valid, `cmd_ready` for the presented
word, `status` and `err`. -/
def Obligations.PortsShowTheState : Prop :=
  ∀ s : State, (s.boValid = true ↔ s.boq ≠ []) ∧ (s.yoValid = true ↔ s.yoq ≠ []) ∧
    (∀ (t : Nat) (b : Bit) (rest : List Bit), s.boq = b :: rest → s.boBit t = b) ∧
    (∀ (t : Nat) (v : Byte) (rest : List Byte), s.yoq = v :: rest → s.yoByte t = v) ∧
    (∀ w : CmdWord, s.cmdReady w = s.accepts Config.depths w) ∧ s.statusPort = s.status ∧
    s.errPort = decide (s.ecause ≠ 0)

/-! ### Acceptance (spec/10_state.md R27) -/

/-- R6: every depth a part may have, at least 8 bits and at least 1 byte or unbounded, is a value of the parameter, and
no other is. -/
def Obligations.DepthsAreTheLegalOnes : Prop :=
  (∀ least cap : Nat, (∃ d : FifoDepth, d.capacity least = some cap) ↔ least ≤ cap) ∧
    (∃ d : FifoDepth, ∀ least : Nat, d.capacity least = none) ∧ leastSerDepth = 8 ∧ leastPackDepth = 1

/-- R27: `Accept`. `free` is the capacity minus the length; a word that is no command is always accepted. -/
def Obligations.AcceptanceIsRoomForTheOutput : Prop :=
  (∀ (c : Depths) (s : State), s.serReady c = true ↔ ∀ cap, c.ser.capacity 8 = some cap → 8 ≤ cap - s.boq.length) ∧
    (∀ (c : Depths) (s : State) (n : Nat), s.pushReady c n = true ↔
      (8 ≤ s.pcnt.toNat + n → ∀ cap, c.pack.capacity 1 = some cap → 1 ≤ cap - s.yoq.length)) ∧
    (∀ (c : Depths) (s : State), s.flushReady c = true ↔
      (s.pcnt ≠ 0 → ∀ cap, c.pack.capacity 1 = some cap → 1 ≤ cap - s.yoq.length)) ∧
    (∀ (c : Depths) (s : State) (w : CmdWord), s.accepts c w =
      match decode w with
      | .cmd (.ser _) => s.serReady c
      | .cmd (.push n _) => s.pushReady c n
      | .cmd .flush => s.flushReady c
      | _ => true)

/-- R27: in a part with any depths, a command that is not accepted has no effect and stays presented; and `exec` runs
the three commands that can be held with the depths of this part. -/
def Obligations.HeldCommandsHaveNoEffect : Prop :=
  (∀ (c : Depths) (d : Byte) (s : State), s.serReady c = false → serAt c d s = .next s) ∧
    (∀ (c : Depths) (n : Nat) (v : Byte) (s : State), s.pushReady c n = false → pushAt c n v s = .next s) ∧
    (∀ (c : Depths) (s : State), s.flushReady c = false → flushAt c s = .next s) ∧
    (∀ d s, exec (.ser d) s = serAt Config.depths d s) ∧
    (∀ n v s, exec (.push n v) s = pushAt Config.depths n v s) ∧
    (∀ s, exec .flush s = flushAt Config.depths s)

/-- R27, R57: a PUSH never emits two bytes, and emits one exactly when `PCNT + n >= 8`; so one free byte suffices. -/
def Obligations.PushEmitsAtMostOneByte : Prop :=
  ∀ (s : State) (n : Nat) (v : Byte), n ≤ 8 →
    (s.pushField n v).yoq.length = s.yoq.length + (if 8 ≤ s.pcnt.toNat + n then 1 else 0)

/-! ### The commands -/

/-- R67: NOP is always accepted and changes nothing. -/
def Obligations.NopChangesNothing : Prop :=
  (∀ s : State, exec .nop s = .next { s with cmds := s.cmds.tail }) ∧ ∀ (c : Depths) (s : State), State.readyFor c s .nop = true

/-- R51: SER, accepted, appends the bits 7 down to 0 of its byte to BOQ, all at once, and changes nothing else. -/
def Obligations.SerAppendsItsByteMostSignificantFirst : Prop :=
  ∀ (d : Byte) (s : State), s.serReady Config.depths = true →
    exec (.ser d) s =
      .next { s with boq := s.boq ++ (List.range 8).map (fun k => d.getLsbD (7 - k)), cmds := s.cmds.tail }

/-- R57, the pseudocode: PUSH, accepted, runs `Push1` on the bits `n-1` down to 0 of its field; BOQ, ECAUSE and the
host's fields are unchanged but for the transferred word. -/
def Obligations.PushShiftsItsFieldBitByBit : Prop :=
  ∀ (n : Nat) (v : Byte) (s : State), (Instr.push n v).wellFormed = true → s.pushReady Config.depths n = true →
    ∃ t, t = ((List.range n).map fun k => v.getLsbD (n - 1 - k)).foldl State.push1 s ∧
      exec (.push n v) s = .next { s with pacc := t.pacc, pcnt := t.pcnt, yoq := t.yoq, cmds := s.cmds.tail }

/-- R57, the closed form: with `t = PCNT + n` and `x = PACC * 2^n + v`, PUSH emits the byte `x div 2^(t-8)` and keeps
`x mod 2^(t-8)` when `t >= 8`, and keeps `x` otherwise. The premise on PACC is R26's. -/
def Obligations.PushFollowsItsClosedForm : Prop :=
  ∀ (n : Nat) (v : Byte) (s : State), (Instr.push n v).wellFormed = true → s.pacc.toNat < 2 ^ s.pcnt.toNat →
    s.pushReady Config.depths n = true →
    exec (.push n v) s =
      (let t := s.pcnt.toNat + n
       let x := s.pacc.toNat * 2 ^ n + v.toNat
       if 8 ≤ t then
         .next { s with yoq := s.yoq ++ [BitVec.ofNat 8 (x / 2 ^ (t - 8))], pacc := BitVec.ofNat 7 (x % 2 ^ (t - 8)),
                        pcnt := BitVec.ofNat 3 (t - 8), cmds := s.cmds.tail }
       else .next { s with pacc := BitVec.ofNat 7 x, pcnt := BitVec.ofNat 3 t, cmds := s.cmds.tail })

/-- R57, R66: two PUSHes of `n1` and `n2` bits have the effect of one PUSH of their bits in order. -/
def Obligations.TwoPushesAreOnePush : Prop :=
  ∀ (s : State) (n1 n2 : Nat) (v1 v2 : Byte), n1 + n2 ≤ 8 → v1.toNat < 2 ^ n1 → v2.toNat < 2 ^ n2 →
    (s.pushField n1 v1).pushField n2 v2 = s.pushField (n1 + n2) (BitVec.ofNat 8 (v1.toNat * 2 ^ n2 + v2.toNat))

/-- R58: FLUSH, accepted, emits the held bits followed by `8 - PCNT` zero bits and empties the accumulator, and does
nothing at a group boundary; nothing else changes. -/
def Obligations.FlushPadsTheUnfinishedGroup : Prop :=
  ∀ s : State, s.flushReady Config.depths = true →
    exec .flush s =
      if s.pcnt ≠ 0 then
        .next { s with yoq := s.yoq ++ [BitVec.ofNat 8 (s.pacc.toNat * 2 ^ (8 - s.pcnt.toNat))], pacc := 0, pcnt := 0,
                       cmds := s.cmds.tail }
      else .next { s with cmds := s.cmds.tail }

/-- R58: with an unfinished group, FLUSH has the same effect as `8 - PCNT` calls of `Push1(0)`. -/
def Obligations.FlushIsPushingZeroBits : Prop :=
  ∀ s : State, s.pcnt ≠ 0 → s.flushGroup = s.pushAll (zeros (8 - s.pcnt.toNat))

/-- R68: CLEAR is always accepted, sets PACC, PCNT and ECAUSE to 0 (so ERR to 0), and leaves both FIFOs as they are. -/
def Obligations.ClearResetsTheRegistersOnly : Prop :=
  (∀ s : State, exec .clear s = .next { s with pacc := 0, pcnt := 0, ecause := 0, cmds := s.cmds.tail }) ∧
    (∀ (c : Depths) (s : State), State.readyFor c s .clear = true) ∧ ∀ s t, exec .clear s = .next t → t.status = 0 ∧ t.err = false

/-- R56: `Push1`, and what `m` calls of it from an empty accumulator leave: the bytes of the first `m div 8` groups,
PCNT `m mod 8`, and in PACC the value of the last `m mod 8` bits. -/
def Obligations.PushedBitsAreEmittedInGroupsOfEight : Prop :=
  (∀ (s : State) (b : Bit), s.push1 b =
    (let acc8 := s.pacc.toNat * 2 + b.toNat
     if s.pcnt.toNat + 1 = 8 then { s with yoq := s.yoq ++ [BitVec.ofNat 8 acc8], pacc := 0, pcnt := 0 }
     else { s with pacc := BitVec.ofNat 7 acc8, pcnt := BitVec.ofNat 3 (s.pcnt.toNat + 1) })) ∧
    ∀ (s : State) (bits : List Bit), s.pcnt = 0 → s.pacc = 0 →
      s.pushAll bits =
        { s with yoq := s.yoq ++ (List.range (bits.length / 8)).map (fun j => byteOf ((bits.drop (8 * j)).take 8)),
                 pcnt := BitVec.ofNat 3 (bits.length % 8),
                 pacc := BitVec.ofNat 7 (bitsValue (bits.drop (8 * (bits.length / 8)))) }

/-- R54: SER neither reads nor writes PACC, PCNT or YOQ; PUSH and FLUSH neither read nor write BOQ. -/
def Obligations.SerializerAndPackerShareNoState : Prop :=
  (∀ (d : Byte) (s t : State) (acc : BitVec 7) (cnt : BitVec 3) (ys : List Byte), exec (.ser d) s = .next t →
    t.pacc = s.pacc ∧ t.pcnt = s.pcnt ∧ t.yoq = s.yoq ∧
      exec (.ser d) { s with pacc := acc, pcnt := cnt, yoq := ys } =
        .next { t with pacc := acc, pcnt := cnt, yoq := ys }) ∧
    ∀ (i : Instr) (s t : State) (bs : List Bit), (∃ n v, i = .push n v) ∨ i = .flush → exec i s = .next t →
      t.boq = s.boq ∧ exec i { s with boq := bs } = .next { t with boq := bs }

/-! ### Errors and status -/

/-- R70: a word that decodes to an error is always accepted; it records its cause if none is recorded and does nothing
else; ERR becomes 1; and the first cause is kept until CLEAR or reset. -/
def Obligations.ErrorWordsRecordTheFirstCause : Prop :=
  (∀ (s : State) (w : CmdWord) (c : Cause), s.nextTurn = .cmd → s.presented = some w → decode w = .error c →
    (∀ depths, s.accepts depths w = true) ∧
      ∃ t, step s = .next t ∧ t.err = true ∧
        t = { s with ecause := if s.ecause = 0 then causeCode c else s.ecause,
                     cmds := s.cmds.tail, turns := s.turns.tail }) ∧
    ∀ s t : State, step s = .next t → s.ecause ≠ 0 → s.nextTurn ≠ .reset → s.transfers ≠ some 0x4000 →
      t.ecause = s.ecause

/-- R22: ERR is 1 exactly when ECAUSE is not 0; it appears as STATUS[12] and on the `err` output; only CLEAR and reset
clear it; and no command reads it: a command other than CLEAR runs alike for every ECAUSE and keeps it. -/
def Obligations.ErrIsSetByErrorsAndClearedByClearOrReset : Prop :=
  (∀ s : State, s.err = true ↔ s.ecause ≠ 0) ∧
    (∀ s : State, s.status.getLsbD 12 = s.err ∧ s.errPort = s.err) ∧
    (∀ (s t : State) (c : Cause), execError c s = .next t → t.err = true) ∧
    (∀ s t : State, step s = .next t → s.err = true → t.err = false →
      s.nextTurn = .reset ∨ s.transfers = some 0x4000) ∧
    ∀ (i : Instr) (s t : State) (e : BitVec 2), exec i s = .next t →
      exec i { s with ecause := e } = .next (if i = .clear then t else { t with ecause := e })

/-- R24: the fields of STATUS, its reserved bits 7, 11 and 15 reading 0; and taking output, reading STATUS or
withdrawing a word changes no field of it. -/
def Obligations.StatusShowsTheRegisters : Prop :=
  (∀ s : State, s.status.extractLsb' 0 7 = s.pacc ∧ s.status.getLsbD 7 = false ∧ s.status.extractLsb' 8 3 = s.pcnt ∧
    s.status.getLsbD 11 = false ∧ s.status.getLsbD 12 = decide (s.ecause ≠ 0) ∧
    s.status.extractLsb' 13 2 = s.ecause ∧ s.status.getLsbD 15 = false) ∧
    ∀ s t : State, step s = .next t → s.nextTurn ≠ .cmd → s.nextTurn ≠ .reset → t.status = s.status

/-- R14 to R18: who writes each piece of the block's state. -/
def Obligations.OnlyTheirWritersChangeTheState : Prop :=
  ∀ s t : State, step s = .next t → s.nextTurn ≠ .reset →
    (t.pacc ≠ s.pacc ∨ t.pcnt ≠ s.pcnt → ∃ w i, s.transfers = some w ∧ decode w = .cmd i ∧
      ((∃ n v, i = .push n v) ∨ i = .flush ∨ i = .clear)) ∧
    (t.ecause ≠ s.ecause → ∃ w, s.transfers = some w ∧ (decode w = .cmd .clear ∨ ∃ c, decode w = .error c)) ∧
    (t.boq ≠ s.boq → s.nextTurn = .takeBit ∨ ∃ w d, s.transfers = some w ∧ decode w = .cmd (.ser d)) ∧
    (t.yoq ≠ s.yoq → s.nextTurn = .takeByte ∨ ∃ w i, s.transfers = some w ∧ decode w = .cmd i ∧
      ((∃ n v, i = .push n v) ∨ i = .flush))

/-! ### The host's events -/

/-- R28: TakeBit and TakeByte remove exactly the head of their FIFO, return it, and change nothing else; and a FIFO holds
its elements in the order they were appended. That their turn on an empty FIFO passes as a step that only uses the turn
is the model's choice (DESIGN CHOICE, log entry 2): R28 says only that the event is not enabled. -/
def Obligations.TakesRemoveTheHead : Prop :=
  (∀ (s : State) (b : Bit) (rest : List Bit), s.nextTurn = .takeBit → s.boq = b :: rest →
    step s = .next { s with boq := rest, turns := s.turns.tail, answers := s.answers ++ [.bit b] }) ∧
    (∀ (s : State) (v : Byte) (rest : List Byte), s.nextTurn = .takeByte → s.yoq = v :: rest →
      step s = .next { s with yoq := rest, turns := s.turns.tail, answers := s.answers ++ [.byte v] }) ∧
    (∀ s : State, s.nextTurn = .takeBit → s.boq = [] → step s = .next { s with turns := s.turns.tail }) ∧
    (∀ s : State, s.nextTurn = .takeByte → s.yoq = [] → step s = .next { s with turns := s.turns.tail }) ∧
    (∀ (s : State) (bs : List Bit), bs.foldl State.bitOut s = { s with boq := s.boq ++ bs }) ∧
    ∀ (s : State) (vs : List Byte), vs.foldl State.byteOut s = { s with yoq := s.yoq ++ vs }

/-- R29: any number of reads of STATUS in a row return the same word and change nothing of the block. -/
def Obligations.StatusReadsHaveNoSideEffect : Prop :=
  ∀ (k : Nat) (s : State) (rest : List Turn), s.turns = List.replicate k .readStatus ++ rest →
    run k s = .next { s with turns := rest, answers := s.answers ++ List.replicate k (.status s.status) }

/-- The model's choice (DESIGN CHOICE, log entry 16): a withdrawal is a turn that drops the presented word, held or not,
without executing it, and changes nothing else. R27 says only that the host may withdraw a held command; R23's table has
no such event. -/
def Obligations.WithdrawnWordIsNotExecuted : Prop :=
  ∀ s : State, s.nextTurn = .withdraw → step s = .next { s with cmds := s.cmds.tail, turns := s.turns.tail }

/-- R30: the reset state: registers 0, FIFOs empty, STATUS 0x0000, the three outputs 0, and every word accepted whatever
the depths. -/
def Obligations.ResetStateIsEmpty : Prop :=
  State.reset.pacc = 0 ∧ State.reset.pcnt = 0 ∧ State.reset.ecause = 0 ∧ State.reset.boq = [] ∧
    State.reset.yoq = [] ∧ State.reset.status = 0 ∧ State.reset.boValid = false ∧ State.reset.yoValid = false ∧
    State.reset.errPort = false ∧ ∀ (c : Depths) (w : CmdWord), State.reset.accepts c w = true

/-- R81: Reset sets the five pieces of the block's state to their reset values from any state; a word that is presented
is not executed (R82); and no event but Reset, TakeBit and TakeByte removes FIFO contents. That Reset leaves `cmds` and
`answers` as they are, so that a held word stays presented, is the model's choice (DEDUCED from R82, log entry 14). -/
def Obligations.ResetEventEmptiesTheBlock : Prop :=
  (∀ s : State, s.nextTurn = .reset →
    step s = .next { pacc := 0, pcnt := 0, ecause := 0, boq := [], yoq := [],
                     cmds := s.cmds, turns := s.turns.tail, answers := s.answers }) ∧
    ∀ s t : State, step s = .next t → s.nextTurn ≠ .reset → s.nextTurn ≠ .takeBit → s.nextTurn ≠ .takeByte →
      (∃ bs, t.boq = s.boq ++ bs) ∧ ∃ vs, t.yoq = s.yoq ++ vs

/-! ### The invariant (spec/10_state.md R26) -/

/-- R26: the invariant holds in the reset state. -/
def Obligations.InvariantHoldsAtReset : Prop := State.reset.Inv

/-- R26: every step keeps the invariant: PACC below `2^PCNT`, ECAUSE not 3, neither FIFO longer than its depth. -/
def Obligations.EveryStepKeepsTheInvariant : Prop := ∀ s t : State, s.Inv → step s = .next t → t.Inv

/-! ### The functions (spec/40_serializer.md R50, spec/41_packer.md R55) -/

/-- R50: `bytesToBits` gives 8 bits for each byte, bit `8i + k` being bit `7 - k` of byte `i`; nothing for nothing. -/
def Obligations.BytesToBitsExpandsEachByte : Prop :=
  bytesToBits [] = [] ∧ ∀ bs : List Byte, (bytesToBits bs).length = 8 * bs.length ∧
    ∀ i k, i < bs.length → k < 8 → (bytesToBits bs)[8 * i + k]? = bs[i]?.map (fun b => b.getLsbD (7 - k))

/-- R55: `bitsToBytes` gives `ceil(len/8)` bytes; bit `7 - k` of byte `j` is bit `8j + k` of the string, and 0 past its
end; 0 to 7 bits are added, making the length a multiple of 8. -/
def Obligations.BitsToBytesPadsTheEndWithZeros : Prop :=
  bitsToBytes [] = [] ∧ ∀ s : List Bit, (bitsToBytes s).length = (s.length + 7) / 8 ∧ pad s.length ≤ 7 ∧
    (s.length + pad s.length) % 8 = 0 ∧
    ∀ j k, j < (bitsToBytes s).length → k < 8 →
      (bitsToBytes s)[j]?.map (fun b => b.getLsbD (7 - k)) = some ((s[8 * j + k]?).getD false)

/-- R63: packing the bits of a byte sequence gives it back; pushed into a packer at a boundary, those bits put exactly
the sequence into YOQ and leave nothing for FLUSH to emit. -/
def Obligations.PackingInvertsSerializing : Prop :=
  (∀ bs : List Byte, bitsToBytes (bytesToBits bs) = bs) ∧
    ∀ (s : State) (bs : List Byte), s.pcnt = 0 → s.pacc = 0 →
      s.pushAll (bytesToBits bs) = { s with yoq := s.yoq ++ bs } ∧
        (s.pushAll (bytesToBits bs)).flushGroup = s.pushAll (bytesToBits bs)

/-- R65: padding is never removed: serializing what was packed gives the string with its padding, which is the string
only when its length is a multiple of 8; so different strings pack to the same bytes. -/
def Obligations.PaddingIsNeverRemoved : Prop :=
  (∀ s : List Bit, bytesToBits (bitsToBytes s) = s ++ zeros (pad s.length)) ∧
    (∀ s : List Bit, bytesToBits (bitsToBytes s) = s ↔ s.length % 8 = 0) ∧
    bitsToBytes [true] = [0x80] ∧ bitsToBytes [true, false] = [0x80] ∧
    bitsToBytes [true, false, false, false, false, false, false, false] = [0x80]

/-- R61: a string whose length is a multiple of 8 gets no padding bit: from a boundary the packer is at a boundary when
FLUSH arrives, and FLUSH emits nothing. -/
def Obligations.AlignedStringsAreNotPadded : Prop :=
  ∀ bits : List Bit, bits.length % 8 = 0 →
    pad bits.length = 0 ∧ bitsToBytes bits = groupBytes bits ∧
      ∀ s : State, s.pcnt = 0 → s.pacc = 0 →
        (s.pushAll bits).pcnt = 0 ∧ (s.pushAll bits).flushGroup = s.pushAll bits ∧
          (s.pushAll bits).yoq = s.yoq ++ bitsToBytes bits

/-- R62: the empty bit string: `bitsToBytes([]) = []`, and a FLUSH at a group boundary emits nothing. -/
def Obligations.EmptyStringEmitsNothing : Prop :=
  bitsToBytes [] = [] ∧ ∀ s : State, s.pcnt = 0 → exec .flush s = .next { s with cmds := s.cmds.tail }

/-! ### Realization: runs of the machine -/

/-- R52: over any run without Reset, the bits the host takes followed by what remains in BOQ are the bits that were there
followed by `bytesToBits` of the bytes of the accepted SER commands; without TakeBit, that is what BOQ holds. Error words
and other commands in between do not change this. -/
def Obligations.SerRunsRealizeBytesToBits : Prop :=
  ∀ (k : Nat) (s t : State), run k s = .next t → (∀ u ∈ s.turns.take k, u ≠ .reset) →
    t.bitsTaken ++ t.boq = s.bitsTaken ++ s.boq ++ bytesToBits (serializedBytes (acceptedWords k s)) ∧
      ((∀ u ∈ s.turns.take k, u ≠ .takeBit) →
        t.boq = s.boq ++ bytesToBits (serializedBytes (acceptedWords k s)))

/-- R59, R60: over any run without Reset, from a state of the invariant with `PCNT = 0`, in which the accepted words are
some words with no FLUSH and no CLEAR among them and then FLUSH, the bytes taken and left in YOQ grow by exactly
`bitsToBytes` of the bits pushed, `ceil(len/8)` bytes, and the accumulator is empty again. NOP, SER and error words in
between, and the way the bits are cut into PUSH commands, do not matter (R66). And the words of `PACK "s"` are such words
with the bits of `s`. -/
def Obligations.PackRunsRealizeBitsToBytes : Prop :=
  (∀ (k : Nat) (s t : State) (ws : List CmdWord), s.Inv → s.pcnt = 0 → run k s = .next t →
    (∀ u ∈ s.turns.take k, u ≠ .reset) → acceptedWords k s = ws ++ [0x3000] →
    (∀ i ∈ commandsOf ws, i ≠ .flush ∧ i ≠ .clear) →
    t.bytesTaken ++ t.yoq = s.bytesTaken ++ s.yoq ++ bitsToBytes (pushedBits ws) ∧
      (bitsToBytes (pushedBits ws)).length = ((pushedBits ws).length + 7) / 8 ∧ t.pcnt = 0 ∧ t.pacc = 0) ∧
    ∀ bits : List Bit, ∃ ws : List CmdWord, assemble (.pack bits) = some (ws ++ [0x3000]) ∧ pushedBits ws = bits ∧
      ∀ i ∈ commandsOf ws, i ≠ .flush ∧ i ≠ .clear

/-- R85: before FLUSH, over such a run, only the `len div 8` complete groups are in YOQ (or taken): a prefix of the
result, never a wrong byte; the last `len mod 8` bits are counted in PCNT. -/
def Obligations.BeforeFlushOnlyCompleteGroupsAreOut : Prop :=
  ∀ (k : Nat) (s t : State), s.Inv → s.pcnt = 0 → run k s = .next t → (∀ u ∈ s.turns.take k, u ≠ .reset) →
    (∀ i ∈ commandsOf (acceptedWords k s), i ≠ .flush ∧ i ≠ .clear) →
    t.bytesTaken ++ t.yoq =
        s.bytesTaken ++ s.yoq ++
          (bitsToBytes (pushedBits (acceptedWords k s))).take ((pushedBits (acceptedWords k s)).length / 8) ∧
      t.pcnt.toNat = (pushedBits (acceptedWords k s)).length % 8
end

