-- ==== Sys2Proof/Laws/Assembler.lean ====
section
/-! SUPPORT. The small facts of the assembler that its statements rest on: collecting words, and what the printed
characters are to the reader of source text. -/

namespace Sys2Proof.Machine

open Sys2Proof

/-- Collecting accepted words gives them all. -/
theorem collect_map_some (ws : List CmdWord) : collect (ws.map some) = some ws := by
  induction ws with
  | nil => rfl
  | cons w rest ih => simp [collect, ih]

/-- One refused word refuses the line. -/
theorem collect_none {ws : List (Option CmdWord)} (h : none ∈ ws) : collect ws = none := by
  induction ws with
  | nil => simp at h
  | cons w rest ih =>
    cases w with
    | none => rfl
    | some w => simp [collect, ih (by simpa using h)]

/-- A bit string's value has at most its length in bits (R49). -/
theorem bitsValue_lt_two_pow (s : List Bit) : bitsValue s < 2 ^ s.length := by
  induction s with
  | nil => simp [bitsValue]
  | cons b rest ih => cases b <;> simp [bitsValue, pow_succ] <;> omega

/-- A printed hexadecimal digit reads back as its value. -/
theorem digitValue_hexDigit {v : Nat} (h : v < 16) : digitValue 16 (hexDigit v) = some v := by
  interval_cases v <;> decide

/-- A printed hexadecimal digit is no blank, starts no comment and separates no operands. -/
theorem hexDigit_plain {v : Nat} (h : v < 16) :
    isBlank (hexDigit v) = false ∧ hexDigit v ≠ ';' ∧ hexDigit v ≠ ',' := by
  interval_cases v <;> decide

end Sys2Proof.Machine
end

