-- ==== Sys2Proof/Laws/State.lean ====
section
/-! SUPPORT. What each update of State leaves in each field: one lemma per field per update. -/

namespace Sys2Proof.Machine

open Sys2Proof

@[simp] theorem State.bitOut_pacc (s : State) (b : Bit) : (s.bitOut b).pacc = s.pacc := rfl
@[simp] theorem State.bitOut_pcnt (s : State) (b : Bit) : (s.bitOut b).pcnt = s.pcnt := rfl
@[simp] theorem State.bitOut_ecause (s : State) (b : Bit) : (s.bitOut b).ecause = s.ecause := rfl
@[simp] theorem State.bitOut_boq (s : State) (b : Bit) : (s.bitOut b).boq = s.boq ++ [b] := rfl
@[simp] theorem State.bitOut_yoq (s : State) (b : Bit) : (s.bitOut b).yoq = s.yoq := rfl
@[simp] theorem State.bitOut_cmds (s : State) (b : Bit) : (s.bitOut b).cmds = s.cmds := rfl
@[simp] theorem State.bitOut_turns (s : State) (b : Bit) : (s.bitOut b).turns = s.turns := rfl
@[simp] theorem State.bitOut_answers (s : State) (b : Bit) : (s.bitOut b).answers = s.answers := rfl

@[simp] theorem State.byteOut_pacc (s : State) (v : Byte) : (s.byteOut v).pacc = s.pacc := rfl
@[simp] theorem State.byteOut_pcnt (s : State) (v : Byte) : (s.byteOut v).pcnt = s.pcnt := rfl
@[simp] theorem State.byteOut_ecause (s : State) (v : Byte) : (s.byteOut v).ecause = s.ecause := rfl
@[simp] theorem State.byteOut_boq (s : State) (v : Byte) : (s.byteOut v).boq = s.boq := rfl
@[simp] theorem State.byteOut_yoq (s : State) (v : Byte) : (s.byteOut v).yoq = s.yoq ++ [v] := rfl
@[simp] theorem State.byteOut_cmds (s : State) (v : Byte) : (s.byteOut v).cmds = s.cmds := rfl
@[simp] theorem State.byteOut_turns (s : State) (v : Byte) : (s.byteOut v).turns = s.turns := rfl
@[simp] theorem State.byteOut_answers (s : State) (v : Byte) : (s.byteOut v).answers = s.answers := rfl

@[simp] theorem State.withPacker_pacc (s : State) (a : BitVec 7) (c : BitVec 3) : (s.withPacker a c).pacc = a := rfl
@[simp] theorem State.withPacker_pcnt (s : State) (a : BitVec 7) (c : BitVec 3) : (s.withPacker a c).pcnt = c := rfl
@[simp] theorem State.withPacker_ecause (s : State) (a : BitVec 7) (c : BitVec 3) : (s.withPacker a c).ecause = s.ecause := rfl
@[simp] theorem State.withPacker_boq (s : State) (a : BitVec 7) (c : BitVec 3) : (s.withPacker a c).boq = s.boq := rfl
@[simp] theorem State.withPacker_yoq (s : State) (a : BitVec 7) (c : BitVec 3) : (s.withPacker a c).yoq = s.yoq := rfl
@[simp] theorem State.withPacker_cmds (s : State) (a : BitVec 7) (c : BitVec 3) : (s.withPacker a c).cmds = s.cmds := rfl
@[simp] theorem State.withPacker_turns (s : State) (a : BitVec 7) (c : BitVec 3) : (s.withPacker a c).turns = s.turns := rfl
@[simp] theorem State.withPacker_answers (s : State) (a : BitVec 7) (c : BitVec 3) : (s.withPacker a c).answers = s.answers := rfl

@[simp] theorem State.withEcause_pacc (s : State) (e : BitVec 2) : (s.withEcause e).pacc = s.pacc := rfl
@[simp] theorem State.withEcause_pcnt (s : State) (e : BitVec 2) : (s.withEcause e).pcnt = s.pcnt := rfl
@[simp] theorem State.withEcause_ecause (s : State) (e : BitVec 2) : (s.withEcause e).ecause = e := rfl
@[simp] theorem State.withEcause_boq (s : State) (e : BitVec 2) : (s.withEcause e).boq = s.boq := rfl
@[simp] theorem State.withEcause_yoq (s : State) (e : BitVec 2) : (s.withEcause e).yoq = s.yoq := rfl
@[simp] theorem State.withEcause_cmds (s : State) (e : BitVec 2) : (s.withEcause e).cmds = s.cmds := rfl
@[simp] theorem State.withEcause_turns (s : State) (e : BitVec 2) : (s.withEcause e).turns = s.turns := rfl
@[simp] theorem State.withEcause_answers (s : State) (e : BitVec 2) : (s.withEcause e).answers = s.answers := rfl

@[simp] theorem State.dropCmd_pacc (s : State) : (s.dropCmd).pacc = s.pacc := rfl
@[simp] theorem State.dropCmd_pcnt (s : State) : (s.dropCmd).pcnt = s.pcnt := rfl
@[simp] theorem State.dropCmd_ecause (s : State) : (s.dropCmd).ecause = s.ecause := rfl
@[simp] theorem State.dropCmd_boq (s : State) : (s.dropCmd).boq = s.boq := rfl
@[simp] theorem State.dropCmd_yoq (s : State) : (s.dropCmd).yoq = s.yoq := rfl
@[simp] theorem State.dropCmd_cmds (s : State) : (s.dropCmd).cmds = s.cmds.tail := rfl
@[simp] theorem State.dropCmd_turns (s : State) : (s.dropCmd).turns = s.turns := rfl
@[simp] theorem State.dropCmd_answers (s : State) : (s.dropCmd).answers = s.answers := rfl

@[simp] theorem State.dropTurn_pacc (s : State) : (s.dropTurn).pacc = s.pacc := rfl
@[simp] theorem State.dropTurn_pcnt (s : State) : (s.dropTurn).pcnt = s.pcnt := rfl
@[simp] theorem State.dropTurn_ecause (s : State) : (s.dropTurn).ecause = s.ecause := rfl
@[simp] theorem State.dropTurn_boq (s : State) : (s.dropTurn).boq = s.boq := rfl
@[simp] theorem State.dropTurn_yoq (s : State) : (s.dropTurn).yoq = s.yoq := rfl
@[simp] theorem State.dropTurn_cmds (s : State) : (s.dropTurn).cmds = s.cmds := rfl
@[simp] theorem State.dropTurn_turns (s : State) : (s.dropTurn).turns = s.turns.tail := rfl
@[simp] theorem State.dropTurn_answers (s : State) : (s.dropTurn).answers = s.answers := rfl

@[simp] theorem State.answer_pacc (s : State) (a : Answer) : (s.answer a).pacc = s.pacc := rfl
@[simp] theorem State.answer_pcnt (s : State) (a : Answer) : (s.answer a).pcnt = s.pcnt := rfl
@[simp] theorem State.answer_ecause (s : State) (a : Answer) : (s.answer a).ecause = s.ecause := rfl
@[simp] theorem State.answer_boq (s : State) (a : Answer) : (s.answer a).boq = s.boq := rfl
@[simp] theorem State.answer_yoq (s : State) (a : Answer) : (s.answer a).yoq = s.yoq := rfl
@[simp] theorem State.answer_cmds (s : State) (a : Answer) : (s.answer a).cmds = s.cmds := rfl
@[simp] theorem State.answer_turns (s : State) (a : Answer) : (s.answer a).turns = s.turns := rfl
@[simp] theorem State.answer_answers (s : State) (a : Answer) : (s.answer a).answers = s.answers ++ [a] := rfl

@[simp] theorem State.resetBlock_pacc (s : State) : (s.resetBlock).pacc = 0 := rfl
@[simp] theorem State.resetBlock_pcnt (s : State) : (s.resetBlock).pcnt = 0 := rfl
@[simp] theorem State.resetBlock_ecause (s : State) : (s.resetBlock).ecause = 0 := rfl
@[simp] theorem State.resetBlock_boq (s : State) : (s.resetBlock).boq = [] := rfl
@[simp] theorem State.resetBlock_yoq (s : State) : (s.resetBlock).yoq = [] := rfl
@[simp] theorem State.resetBlock_cmds (s : State) : (s.resetBlock).cmds = s.cmds := rfl
@[simp] theorem State.resetBlock_turns (s : State) : (s.resetBlock).turns = s.turns := rfl
@[simp] theorem State.resetBlock_answers (s : State) : (s.resetBlock).answers = s.answers := rfl

@[simp] theorem State.reset_pacc : State.reset.pacc = 0 := rfl
@[simp] theorem State.reset_pcnt : State.reset.pcnt = 0 := rfl
@[simp] theorem State.reset_ecause : State.reset.ecause = 0 := rfl
@[simp] theorem State.reset_boq : State.reset.boq = [] := rfl
@[simp] theorem State.reset_yoq : State.reset.yoq = [] := rfl
@[simp] theorem State.reset_cmds : State.reset.cmds = [] := rfl
@[simp] theorem State.reset_turns : State.reset.turns = [] := rfl
@[simp] theorem State.reset_answers : State.reset.answers = [] := rfl

end Sys2Proof.Machine
end

