-- ==== Sys2Proof/Laws/Ops.lean ====
section
/-! SUPPORT. What each shared operation can do, said once: the provers cite these lemmas instead of unfolding. -/

namespace Sys2Proof.Machine

open Sys2Proof

/-! ### Acceptance -/

/-- R27: room is exactly that the FIFO with the new elements is no longer than its capacity. -/
theorem fifoHasRoom_iff (least : Nat) (d : FifoDepth) (len need : Nat) :
    fifoHasRoom least d len need = true ↔ ∀ cap, d.capacity least = some cap → len + need ≤ cap := by
  cases d with
  | unbounded => simp [fifoHasRoom, FifoDepth.capacity]
  | leastPlus k => simp [fifoHasRoom, FifoDepth.capacity]; omega

/-- A FIFO that stays within the least legal depth always has room. -/
theorem fifoHasRoom_least {least len need : Nat} (d : FifoDepth) (h : len + need ≤ least) :
    fifoHasRoom least d len need = true := by simp [fifoHasRoom, h]

/-- What `issue` answers: the effect and the word gone, or nothing at all. -/
theorem issue_next {ready : Bool} {effect : State → State} {s t : State} (h : issue ready effect s = .next t) :
    (ready = true ∧ t = (effect s).dropCmd) ∨ (ready = false ∧ t = s) := by
  unfold issue at h
  cases ready <;> simp_all

@[simp] theorem issue_true (effect : State → State) (s : State) :
    issue true effect s = .next (effect s).dropCmd := rfl

@[simp] theorem issue_false (effect : State → State) (s : State) : issue false effect s = .next s := rfl

/-! ### The output primitives -/

/-- R17, R51: `BitOut` for each bit appends the bits in order. -/
theorem State.bitOutAll_eq (bits : List Bit) (s : State) : s.bitOutAll bits = { s with boq := s.boq ++ bits } := by
  induction bits generalizing s with
  | nil => simp [State.bitOutAll]
  | cons b rest ih =>
    have h : s.bitOutAll (b :: rest) = (s.bitOut b).bitOutAll rest := rfl
    rw [h, ih]
    simp [State.bitOut]

/-- R51: SER appends the eight bits of its byte. -/
theorem State.serialize_eq (s : State) (d : Byte) : s.serialize d = { s with boq := s.boq ++ bits8 d } :=
  s.bitOutAll_eq (serBits d)

/-! ### The accumulator -/

/-- R56, the eighth bit of a group. -/
theorem State.push1_full {s : State} (b : Bit) (h : s.pcnt = 7) :
    s.push1 b = (s.byteOut (s.shiftedIn b)).withPacker 0 0 := by simp [State.push1, h]

/-- R56, an earlier bit of a group. -/
theorem State.push1_partial {s : State} (b : Bit) (h : s.pcnt ≠ 7) :
    s.push1 b = s.withPacker ((s.shiftedIn b).setWidth 7) (s.pcnt + 1) := by
  have h7 : s.pcnt.toNat ≠ 7 := fun e => h (BitVec.eq_of_toNat_eq e)
  have h8 : ¬ s.pcnt.toNat + 1 = 8 := by omega
  have hc : BitVec.ofNat 3 (s.pcnt.toNat + 1) = s.pcnt + 1 := by
    apply BitVec.eq_of_toNat_eq
    simp [BitVec.toNat_add]
  simp [State.push1, h8, hc]

@[simp] theorem State.push1_ecause (s : State) (b : Bit) : (s.push1 b).ecause = s.ecause := by
  unfold State.push1; split <;> rfl

@[simp] theorem State.push1_boq (s : State) (b : Bit) : (s.push1 b).boq = s.boq := by
  unfold State.push1; split <;> rfl

@[simp] theorem State.push1_cmds (s : State) (b : Bit) : (s.push1 b).cmds = s.cmds := by
  unfold State.push1; split <;> rfl

@[simp] theorem State.push1_turns (s : State) (b : Bit) : (s.push1 b).turns = s.turns := by
  unfold State.push1; split <;> rfl

@[simp] theorem State.push1_answers (s : State) (b : Bit) : (s.push1 b).answers = s.answers := by
  unfold State.push1; split <;> rfl

@[simp] theorem State.pushAll_nil (s : State) : s.pushAll [] = s := rfl

@[simp] theorem State.pushAll_cons (s : State) (b : Bit) (bits : List Bit) :
    s.pushAll (b :: bits) = (s.push1 b).pushAll bits := rfl

/-- R66: how the bits are cut does not matter. -/
theorem State.pushAll_append (s : State) (xs ys : List Bit) : s.pushAll (xs ++ ys) = (s.pushAll xs).pushAll ys :=
  List.foldl_append

@[simp] theorem State.pushAll_ecause (bits : List Bit) (s : State) : (s.pushAll bits).ecause = s.ecause := by
  induction bits generalizing s with
  | nil => rfl
  | cons b rest ih => simp [ih]

@[simp] theorem State.pushAll_boq (bits : List Bit) (s : State) : (s.pushAll bits).boq = s.boq := by
  induction bits generalizing s with
  | nil => rfl
  | cons b rest ih => simp [ih]

@[simp] theorem State.pushAll_cmds (bits : List Bit) (s : State) : (s.pushAll bits).cmds = s.cmds := by
  induction bits generalizing s with
  | nil => rfl
  | cons b rest ih => simp [ih]

@[simp] theorem State.pushAll_turns (bits : List Bit) (s : State) : (s.pushAll bits).turns = s.turns := by
  induction bits generalizing s with
  | nil => rfl
  | cons b rest ih => simp [ih]

@[simp] theorem State.pushAll_answers (bits : List Bit) (s : State) : (s.pushAll bits).answers = s.answers := by
  induction bits generalizing s with
  | nil => rfl
  | cons b rest ih => simp [ih]

@[simp] theorem pushBits_length (n : Nat) (v : Byte) : (pushBits n v).length = n := by
  induction n with
  | zero => rfl
  | succ k ih => simp [pushBits, ih]

/-- R58, at a boundary. -/
theorem State.flushGroup_boundary {s : State} (h : s.pcnt = 0) : s.flushGroup = s := by simp [State.flushGroup, h]

/-- R58, with an unfinished group. -/
theorem State.flushGroup_unfinished {s : State} (h : s.pcnt ≠ 0) :
    s.flushGroup = (s.byteOut s.paddedGroup).withPacker 0 0 := if_pos h

/-! ### Recording an error -/

/-- R70: the first cause is recorded. -/
theorem State.raiseCmdError_first {s : State} (c : Cause) (h : s.ecause = 0) :
    s.raiseCmdError c = s.withEcause (causeCode c) := by simp [State.raiseCmdError, h]

/-- R70: a later error changes nothing. -/
theorem State.raiseCmdError_later {s : State} (c : Cause) (h : s.ecause ≠ 0) : s.raiseCmdError c = s := if_neg h

/-- R70: what recording an error does. -/
theorem State.raiseCmdError_cases (s : State) (c : Cause) :
    (s.ecause = 0 ∧ s.raiseCmdError c = s.withEcause (causeCode c)) ∨ (s.ecause ≠ 0 ∧ s.raiseCmdError c = s) := by
  by_cases h : s.ecause = 0
  · exact .inl ⟨h, State.raiseCmdError_first c h⟩
  · exact .inr ⟨h, State.raiseCmdError_later c h⟩

/-- R58: what FLUSH does. -/
theorem State.flushGroup_cases (s : State) :
    (s.pcnt = 0 ∧ s.flushGroup = s) ∨
      (s.pcnt ≠ 0 ∧ s.flushGroup = (s.byteOut s.paddedGroup).withPacker 0 0) := by
  by_cases h : s.pcnt = 0
  · exact .inl ⟨h, State.flushGroup_boundary h⟩
  · exact .inr ⟨h, State.flushGroup_unfinished h⟩

/-- R56: what `Push1` does. -/
theorem State.push1_cases (s : State) (b : Bit) :
    (s.pcnt = 7 ∧ s.push1 b = (s.byteOut (s.shiftedIn b)).withPacker 0 0) ∨
      (s.pcnt ≠ 7 ∧ s.push1 b = s.withPacker ((s.shiftedIn b).setWidth 7) (s.pcnt + 1)) := by
  by_cases h : s.pcnt = 7
  · exact .inl ⟨h, State.push1_full b h⟩
  · exact .inr ⟨h, State.push1_partial b h⟩

/-- R69: no cause has the code 0 or 3. -/
theorem causeCode_legal (c : Cause) : causeCode c ≠ 0 ∧ causeCode c ≠ 3 := by cases c <;> decide

/-! ### The host's events -/

/-- R28: what `TakeBit` does. -/
theorem State.takeBit_cases (s : State) :
    (s.boq = [] ∧ s.takeBit = s) ∨
      ∃ b rest, s.boq = b :: rest ∧ s.takeBit = { s with boq := rest, answers := s.answers ++ [.bit b] } := by
  unfold State.takeBit
  cases h : s.boq with
  | nil => simp
  | cons b rest => exact .inr ⟨b, rest, rfl, rfl⟩

/-- R28: what `TakeByte` does. -/
theorem State.takeByte_cases (s : State) :
    (s.yoq = [] ∧ s.takeByte = s) ∨
      ∃ v rest, s.yoq = v :: rest ∧ s.takeByte = { s with yoq := rest, answers := s.answers ++ [.byte v] } := by
  unfold State.takeByte
  cases h : s.yoq with
  | nil => simp
  | cons v rest => exact .inr ⟨v, rest, rfl, rfl⟩

/-! ### What each effect leaves unchanged -/

@[simp] theorem State.serialize_pacc (s : State) (d : Byte) : (s.serialize d).pacc = s.pacc := by rw [State.serialize_eq]
@[simp] theorem State.serialize_pcnt (s : State) (d : Byte) : (s.serialize d).pcnt = s.pcnt := by rw [State.serialize_eq]
@[simp] theorem State.serialize_ecause (s : State) (d : Byte) : (s.serialize d).ecause = s.ecause := by rw [State.serialize_eq]
@[simp] theorem State.serialize_boq (s : State) (d : Byte) : (s.serialize d).boq = s.boq ++ bits8 d := by rw [State.serialize_eq]
@[simp] theorem State.serialize_yoq (s : State) (d : Byte) : (s.serialize d).yoq = s.yoq := by rw [State.serialize_eq]
@[simp] theorem State.serialize_cmds (s : State) (d : Byte) : (s.serialize d).cmds = s.cmds := by rw [State.serialize_eq]
@[simp] theorem State.serialize_turns (s : State) (d : Byte) : (s.serialize d).turns = s.turns := by rw [State.serialize_eq]
@[simp] theorem State.serialize_answers (s : State) (d : Byte) : (s.serialize d).answers = s.answers := by rw [State.serialize_eq]

@[simp] theorem State.pushField_ecause (s : State) (n : Nat) (v : Byte) : (s.pushField n v).ecause = s.ecause := State.pushAll_ecause _ _
@[simp] theorem State.pushField_boq (s : State) (n : Nat) (v : Byte) : (s.pushField n v).boq = s.boq := State.pushAll_boq _ _
@[simp] theorem State.pushField_cmds (s : State) (n : Nat) (v : Byte) : (s.pushField n v).cmds = s.cmds := State.pushAll_cmds _ _
@[simp] theorem State.pushField_turns (s : State) (n : Nat) (v : Byte) : (s.pushField n v).turns = s.turns := State.pushAll_turns _ _
@[simp] theorem State.pushField_answers (s : State) (n : Nat) (v : Byte) : (s.pushField n v).answers = s.answers := State.pushAll_answers _ _

@[simp] theorem State.flushGroup_ecause (s : State) : (s.flushGroup).ecause = s.ecause := by
  unfold State.flushGroup; split <;> rfl
@[simp] theorem State.flushGroup_boq (s : State) : (s.flushGroup).boq = s.boq := by
  unfold State.flushGroup; split <;> rfl
@[simp] theorem State.flushGroup_cmds (s : State) : (s.flushGroup).cmds = s.cmds := by
  unfold State.flushGroup; split <;> rfl
@[simp] theorem State.flushGroup_turns (s : State) : (s.flushGroup).turns = s.turns := by
  unfold State.flushGroup; split <;> rfl
@[simp] theorem State.flushGroup_answers (s : State) : (s.flushGroup).answers = s.answers := by
  unfold State.flushGroup; split <;> rfl

@[simp] theorem State.clearRegisters_pacc (s : State) : (s.clearRegisters).pacc = 0 := rfl
@[simp] theorem State.clearRegisters_pcnt (s : State) : (s.clearRegisters).pcnt = 0 := rfl
@[simp] theorem State.clearRegisters_ecause (s : State) : (s.clearRegisters).ecause = 0 := rfl
@[simp] theorem State.clearRegisters_boq (s : State) : (s.clearRegisters).boq = s.boq := rfl
@[simp] theorem State.clearRegisters_yoq (s : State) : (s.clearRegisters).yoq = s.yoq := rfl
@[simp] theorem State.clearRegisters_cmds (s : State) : (s.clearRegisters).cmds = s.cmds := rfl
@[simp] theorem State.clearRegisters_turns (s : State) : (s.clearRegisters).turns = s.turns := rfl
@[simp] theorem State.clearRegisters_answers (s : State) : (s.clearRegisters).answers = s.answers := rfl

@[simp] theorem State.raiseCmdError_pacc (s : State) (c : Cause) : (s.raiseCmdError c).pacc = s.pacc := by
  unfold State.raiseCmdError; split <;> rfl
@[simp] theorem State.raiseCmdError_pcnt (s : State) (c : Cause) : (s.raiseCmdError c).pcnt = s.pcnt := by
  unfold State.raiseCmdError; split <;> rfl
@[simp] theorem State.raiseCmdError_boq (s : State) (c : Cause) : (s.raiseCmdError c).boq = s.boq := by
  unfold State.raiseCmdError; split <;> rfl
@[simp] theorem State.raiseCmdError_yoq (s : State) (c : Cause) : (s.raiseCmdError c).yoq = s.yoq := by
  unfold State.raiseCmdError; split <;> rfl
@[simp] theorem State.raiseCmdError_cmds (s : State) (c : Cause) : (s.raiseCmdError c).cmds = s.cmds := by
  unfold State.raiseCmdError; split <;> rfl
@[simp] theorem State.raiseCmdError_turns (s : State) (c : Cause) : (s.raiseCmdError c).turns = s.turns := by
  unfold State.raiseCmdError; split <;> rfl
@[simp] theorem State.raiseCmdError_answers (s : State) (c : Cause) : (s.raiseCmdError c).answers = s.answers := by
  unfold State.raiseCmdError; split <;> rfl

@[simp] theorem State.takeBit_pacc (s : State) : (s.takeBit).pacc = s.pacc := by
  unfold State.takeBit; split <;> rfl
@[simp] theorem State.takeBit_pcnt (s : State) : (s.takeBit).pcnt = s.pcnt := by
  unfold State.takeBit; split <;> rfl
@[simp] theorem State.takeBit_ecause (s : State) : (s.takeBit).ecause = s.ecause := by
  unfold State.takeBit; split <;> rfl
@[simp] theorem State.takeBit_yoq (s : State) : (s.takeBit).yoq = s.yoq := by
  unfold State.takeBit; split <;> rfl
@[simp] theorem State.takeBit_cmds (s : State) : (s.takeBit).cmds = s.cmds := by
  unfold State.takeBit; split <;> rfl
@[simp] theorem State.takeBit_turns (s : State) : (s.takeBit).turns = s.turns := by
  unfold State.takeBit; split <;> rfl

@[simp] theorem State.takeByte_pacc (s : State) : (s.takeByte).pacc = s.pacc := by
  unfold State.takeByte; split <;> rfl
@[simp] theorem State.takeByte_pcnt (s : State) : (s.takeByte).pcnt = s.pcnt := by
  unfold State.takeByte; split <;> rfl
@[simp] theorem State.takeByte_ecause (s : State) : (s.takeByte).ecause = s.ecause := by
  unfold State.takeByte; split <;> rfl
@[simp] theorem State.takeByte_boq (s : State) : (s.takeByte).boq = s.boq := by
  unfold State.takeByte; split <;> rfl
@[simp] theorem State.takeByte_cmds (s : State) : (s.takeByte).cmds = s.cmds := by
  unfold State.takeByte; split <;> rfl
@[simp] theorem State.takeByte_turns (s : State) : (s.takeByte).turns = s.turns := by
  unfold State.takeByte; split <;> rfl

@[simp] theorem State.readStatus_pacc (s : State) : (s.readStatus).pacc = s.pacc := rfl
@[simp] theorem State.readStatus_pcnt (s : State) : (s.readStatus).pcnt = s.pcnt := rfl
@[simp] theorem State.readStatus_ecause (s : State) : (s.readStatus).ecause = s.ecause := rfl
@[simp] theorem State.readStatus_boq (s : State) : (s.readStatus).boq = s.boq := rfl
@[simp] theorem State.readStatus_yoq (s : State) : (s.readStatus).yoq = s.yoq := rfl
@[simp] theorem State.readStatus_cmds (s : State) : (s.readStatus).cmds = s.cmds := rfl
@[simp] theorem State.readStatus_turns (s : State) : (s.readStatus).turns = s.turns := rfl

end Sys2Proof.Machine
end

