-- ==== Sys2Proof/Laws/PerInstr.lean ====
section
/-! SUPPORT. The statements made per instruction: one lemma per constructor of Instr. -/

namespace Sys2Proof.Laws

open Sys2Proof

/-- R40, R42: the top field of a command's word is its opcode, and the reserved top bit of N is 0. -/
def EncodedFields.Statement (i : Instr) : Prop := opField (encode i) = i.opcode ∧ (encode i).getLsbD 11 = false

/-- The bits of a word made of an opcode, a field N with a zero top bit, and a field D. -/
theorem fields_of_append (op : BitVec 4) (c : BitVec 3) (d : Byte) :
    opField (op ++ (0 : BitVec 1) ++ c ++ d : BitVec 16) = op ∧
      (op ++ (0 : BitVec 1) ++ c ++ d : BitVec 16).getLsbD 11 = false := by
  constructor
  · apply BitVec.eq_of_getLsbD_eq
    intro k hk
    interval_cases k <;> simp only [opField, BitVec.getLsbD_extractLsb', BitVec.getLsbD_append] <;> simp
  · simp only [BitVec.getLsbD_append]; simp

theorem EncodedFields.nop : EncodedFields.Statement .nop := by
  unfold EncodedFields.Statement; decide

theorem EncodedFields.ser (d : Byte) : EncodedFields.Statement (.ser d) := fields_of_append 1 0 d

theorem EncodedFields.push (n : Nat) (v : Byte) : EncodedFields.Statement (.push n v) :=
  fields_of_append 2 (BitVec.ofNat 3 (n - 1)) v

theorem EncodedFields.flush : EncodedFields.Statement .flush := by
  unfold EncodedFields.Statement; decide

theorem EncodedFields.clear : EncodedFields.Statement .clear := by
  unfold EncodedFields.Statement; decide

end Sys2Proof.Laws
end

