-- ==== Sys2Proof/Laws/Step.lean ====
section
/-! SUPPORT. What a command and a step can do, said once. -/

namespace Sys2Proof.Machine

open Sys2Proof

/-- The effect of a command once it is accepted, without its transfer (R51, R57, R58, R67, R68). -/
def State.effectOf (s : State) : Instr → State
  | .nop => s
  | .ser d => s.serialize d
  | .push n v => s.pushField n v
  | .flush => s.flushGroup
  | .clear => s.clearRegisters

/-- Every command waits for its room (R27) and then has its effect at once. -/
theorem exec_eq_issue (i : Instr) (s : State) :
    exec i s = issue (s.readyFor Config.depths i) (fun t => t.effectOf i) s := by cases i <;> rfl

/-- Everything a command's `exec` can answer: its effect with the word gone, or, held, nothing. -/
theorem exec_cases {i : Instr} {s t : State} (h : exec i s = .next t) :
    (s.readyFor Config.depths i = true ∧ t = (s.effectOf i).dropCmd) ∨
      (s.readyFor Config.depths i = false ∧ t = s) := by
  rw [exec_eq_issue] at h
  exact issue_next h

/-- A decoded word runs its command or records its error. -/
def State.effectOfDecoded (s : State) : Decoded → State
  | .cmd i => s.effectOf i
  | .error c => s.raiseCmdError c

/-- The transfer of a presented word: accepted with its whole effect, or held with none. -/
theorem transferCmd_presented {s : State} {w : CmdWord} (h : s.presented = some w) :
    transferCmd s =
      .next (if s.accepts Config.depths w then (s.effectOfDecoded (decode w)).dropCmd else s) := by
  have e : transferCmd s = execDecoded (decode w) s := by unfold transferCmd; rw [h]
  rw [e, State.accepts]
  generalize decode w = d
  cases d with
  | cmd i =>
    rw [execDecoded, exec_eq_issue, issue]
    cases hr : s.readyFor Config.depths i <;> simp [State.acceptsDecoded, State.effectOfDecoded, hr]
  | error c => rfl

/-- The command port with nothing presented. -/
theorem transferCmd_idle {s : State} (h : s.presented = none) : transferCmd s = .next s := by
  simp [transferCmd, h]

/-- Everything a step can do: one event of R23, a withdrawal, or nothing but the use of the turn. -/
theorem step_cases {s t : State} (h : step s = .next t) :
    (s.nextTurn = .cmd ∧ s.presented = none ∧ t = s.dropTurn) ∨
    (∃ w, s.nextTurn = .cmd ∧ s.presented = some w ∧ s.accepts Config.depths w = true ∧
      t = (s.dropTurn.effectOfDecoded (decode w)).dropCmd) ∨
    (∃ w, s.nextTurn = .cmd ∧ s.presented = some w ∧ s.accepts Config.depths w = false ∧ t = s.dropTurn) ∨
    (s.nextTurn = .takeBit ∧ t = s.dropTurn.takeBit) ∨
    (s.nextTurn = .takeByte ∧ t = s.dropTurn.takeByte) ∨
    (s.nextTurn = .readStatus ∧ t = s.dropTurn.readStatus) ∨
    (s.nextTurn = .reset ∧ t = s.dropTurn.resetBlock) ∨
    (s.nextTurn = .withdraw ∧ t = s.dropTurn.dropCmd) := by
  unfold step runNextTurn at h
  cases ht : s.nextTurn <;> rw [ht] at h <;> simp only [runTurn] at h
  case cmd =>
    have hp : s.dropTurn.presented = s.presented := rfl
    have ha : ∀ w, s.dropTurn.accepts Config.depths w = s.accepts Config.depths w := fun _ => rfl
    cases hw : s.presented with
    | none =>
      rw [transferCmd_idle (hp.trans hw)] at h
      cases h
      exact .inl ⟨rfl, rfl, rfl⟩
    | some w =>
      rw [transferCmd_presented (hp.trans hw), ha] at h
      cases hr : s.accepts Config.depths w with
      | true =>
        simp only [hr, if_true] at h
        cases h
        exact .inr (.inl ⟨w, rfl, rfl, hr, rfl⟩)
      | false =>
        simp only [hr, Bool.false_eq_true, if_false] at h
        cases h
        exact .inr (.inr (.inl ⟨w, rfl, rfl, hr, rfl⟩))
  all_goals (cases h; simp)

end Sys2Proof.Machine
end

