-- ==== Sys2Proof/Tests/Slice0.lean ====
section
/-! SUPPORT. The model's own tests: ill-formed terms, words written out from their encodings, one step of each command
with the values of spec/95_test_vectors.md, and for every statement with hypotheses a state that meets them. -/

namespace Sys2Proof.Tests

open Sys2Proof Sys2Proof.Machine

/-- The reset state with a packer, words presented and turns planned. -/
def mk (cnt : BitVec 3) (acc : BitVec 7) (ws : List CmdWord) (ts : List Turn) : State :=
  { State.reset with pcnt := cnt, pacc := acc, cmds := ws, turns := ts }

/-- A part with the least depths: 8 bits and 1 byte. -/
def leastDepths : Depths := { ser := .leastPlus 0, pack := .leastPlus 0 }

/-! ### Ill-formed terms (R48) -/

theorem test_wellFormed_refuses_count_0 : (Instr.push 0 0).wellFormed = false := by decide
theorem test_wellFormed_refuses_count_9 : (Instr.push 9 0).wellFormed = false := by decide
theorem test_wellFormed_refuses_wide_value : (Instr.push 3 8).wellFormed = false := by decide

/-! ### Decoding: words written bit by bit from R42 (95_test_vectors.md 2.1) -/

theorem test_decode_nop : decode 0b0000000000000000 = .cmd .nop := by decide
theorem test_decode_ser : decode 0b0001000001000001 = .cmd (.ser 0x41) := by decide
theorem test_decode_push : decode 0b0010010000001101 = .cmd (.push 5 0b01101) := by decide
theorem test_decode_flush : decode 0b0011000000000000 = .cmd .flush := by decide
theorem test_decode_clear : decode 0b0100000000000000 = .cmd .clear := by decide
theorem test_decode_reserved_d : decode 0x2004 = .error .reservedNonzero := by decide
theorem test_decode_reserved_r : decode 0x2800 = .error .reservedNonzero := by decide
theorem test_decode_illegal : decode 0xF123 = .error .illegalOp := by decide
theorem test_encode_push : encode (.push 5 0b01101) = 0x240D := by decide

/-! ### One step of each command -/

theorem test_nop : step (mk 3 5 [0x0000] []) = .next (mk 3 5 [] []) := rfl

theorem test_ser : step (State.reset.withFetchWord 16 0x1080) =
    .next { State.reset with boq := [true, false, false, false, false, false, false, false] } := rfl

/-- 2.4, the row that keeps seven bits. -/
theorem test_push_crosses : step (mk 7 0x55 [0x27AA] []) = .next { mk 7 0x2A [] [] with yoq := [0xAB] } := rfl

theorem test_push_keeps : step (mk 0 0 [0x2200] []) = .next (mk 3 0 [] []) := rfl

theorem test_flush_pads : step (mk 3 5 [0x3000] []) = .next { mk 0 0 [] [] with yoq := [0xA0] } := rfl

theorem test_flush_boundary : step (mk 0 0 [0x3000] []) = .next (mk 0 0 [] []) := rfl

theorem test_clear : step { mk 3 5 [0x4000] [] with ecause := 1, yoq := [7] } =
    .next { mk 0 0 [] [] with yoq := [7] } := rfl

theorem test_error_first : step (mk 3 6 [0x5000] []) = .next { mk 3 6 [] [] with ecause := 1 } := rfl

theorem test_error_later : step { mk 3 6 [0x2004] [] with ecause := 1 } =
    .next { mk 3 6 [] [] with ecause := 1 } := rfl

/-- 2.8. -/
theorem test_status : State.status { mk 7 0x7F [] [] with ecause := 2 } = 0x577F := by decide

/-- 2.2. -/
theorem test_bitsToBytes : bitsToBytes [true, false, true, true, false, false, true, true, true, false, true] =
    [0xB3, 0xA0] := by decide

/-- 2.9: a full BOQ of 8 bits holds SER and nothing else. -/
theorem test_accept_full_boq :
    ([0x10BB, 0x2701, 0x0000, 0x5000].map
      (State.accepts leastDepths { mk 0 0 [] [] with boq := List.replicate 8 true })) =
      [false, true, true, true] := by decide

/-- 2.9: a full YOQ of 1 byte holds a PUSH that completes a group, and FLUSH of an unfinished group. -/
theorem test_accept_full_yoq :
    ([0x2722, 0x2202, 0x3000, 0x1000].map (State.accepts leastDepths { mk 0 0 [] [] with yoq := [1] })) =
        [false, true, true, true] ∧
      ([0x3000, 0x2305].map (State.accepts leastDepths { mk 3 2 [] [] with yoq := [1] })) = [false, true] := by
  decide

/-- P6 of 95_test_vectors.md, with a YOQ of 1 byte: held while it is full, accepted once the byte is taken. -/
theorem test_push_held_then_accepted :
    pushAt leastDepths 5 0b10101 { mk 3 2 [0x2415] [] with yoq := [0x11] } =
        .next { mk 3 2 [0x2415] [] with yoq := [0x11] } ∧
      pushAt leastDepths 5 0b10101 (State.takeByte { mk 3 2 [0x2415] [] with yoq := [0x11] }) =
        .next { mk 0 0 [] [] with yoq := [0x55], answers := [.byte 0x11] } := ⟨rfl, rfl⟩

/-- P2 of 95_test_vectors.md, the expansion of `PACK "10110011101"`. -/
theorem test_pack_expansion :
    assemble (.pack [true, false, true, true, false, false, true, true, true, false, true]) =
      some [0x27B3, 0x2205, 0x3000] := by decide

/-- The text `PUSH 3, 0b101 ;x` assembles to 0x2205. -/
theorem test_assembleText :
    assembleText ['P', 'U', 'S', 'H', ' ', '3', ',', ' ', '0', 'b', '1', '0', '1', ' ', ';', 'x'] = some [0x2205] := by
  decide

/-- The text that the disassembler prints for an error word (R48). -/
theorem test_disassembleText : disassembleText 0x5ABC = ['.', 'w', 'o', 'r', 'd', ' ', '0', 'x', '5', 'A', 'B', 'C'] := by
  decide

/-! ### Witnesses: the hypotheses of the statements are met -/

theorem witness_DecodeOfEncodeIsTheCommand : (Instr.push 8 0xFF).wellFormed = true := by decide

theorem witness_EncodeOfDecodeIsTheWord : decode 0x27FF = .cmd (.push 8 0xFF) := by decide

theorem witness_IllegalOpcodesOnlyRecordTheError :
    0x5000 ≤ (0x5000 : CmdWord).toNat ∧ 0x5000 ≤ (0xFFFF : CmdWord).toNat ∧
      (mk 0 0 [0x5000] []).nextTurn = .cmd ∧ (mk 0 0 [0x5000] []).presented = some 0x5000 := by decide

theorem witness_ReservedEncodingsOnlyRecordTheError :
    [0x0001, 0x1100, 0x2800, 0x2002, 0x2680, 0x3001, 0x4800].all reservedWord = true ∧
      (mk 0 0 [0x2002] []).nextTurn = .cmd ∧ (mk 0 0 [0x2002] []).presented = some 0x2002 := by decide

theorem witness_AssemblerInvertsDisassembler : (Instr.push 1 1).wellFormed = true := by decide

theorem witness_PseudoInstructionsExpandToTheirCommands :
    [true, false, true].length ≤ 8 ∧ (List.replicate 8 true).length ≤ 8 ∧ ∀ b ∈ [0, 255], b < 256 := by decide

theorem witness_StepRunsTheDecodedCommand :
    (mk 0 0 [0x1041] [.cmd]).nextTurn = .cmd ∧ (mk 0 0 [0x1041] [.cmd]).presented = some 0x1041 ∧
      (Instr.ser 0x41).wellFormed = true ∧ decode 0x1041 = .cmd (.ser 0x41) := by decide

theorem witness_PresentedWordRunsOrIsHeld :
    (mk 0 0 [0x1041] []).nextTurn = .cmd ∧ (mk 0 0 [0x1041] []).presented = some 0x1041 := by decide

theorem witness_FetchWordIsTheNextCommand : decodeTableWord 16 0x3000 = some .flush := by decide

theorem witness_PortsShowTheState :
    ({ State.reset with boq := [true] } : State).boq = true :: [] ∧
      ({ State.reset with yoq := [9] } : State).yoq = 9 :: [] := by decide

theorem witness_AcceptanceIsRoomForTheOutput :
    leastDepths.ser.capacity 8 = some 8 ∧ leastDepths.pack.capacity 1 = some 1 ∧
      8 ≤ (mk 7 0 [] []).pcnt.toNat + 1 ∧ (mk 7 0 [] []).pcnt ≠ 0 := by decide

theorem witness_HeldCommandsHaveNoEffect :
    State.serReady leastDepths { State.reset with boq := [true] } = false ∧
      State.pushReady leastDepths { mk 7 0 [] [] with yoq := [1] } 1 = false ∧
      State.flushReady leastDepths { mk 1 0 [] [] with yoq := [1] } = false := by decide

theorem witness_PushEmitsAtMostOneByte : 8 ≤ 8 ∧ 8 ≤ (mk 7 0 [] []).pcnt.toNat + 1 ∧
    ¬ 8 ≤ (mk 7 0 [] []).pcnt.toNat + 0 := by decide

theorem witness_SerAppendsItsByteMostSignificantFirst : State.reset.serReady Config.depths = true := rfl

theorem witness_PushShiftsItsFieldBitByBit :
    (Instr.push 8 0xFF).wellFormed = true ∧ (mk 7 0x7F [] []).pushReady Config.depths 8 = true := ⟨rfl, rfl⟩

/-- The clause that emits a byte, at its boundary `t = 8`. -/
theorem witness_PushFollowsItsClosedForm_emits :
    (Instr.push 1 1).wellFormed = true ∧ (mk 7 0x7F [] []).pacc.toNat < 2 ^ (mk 7 0x7F [] []).pcnt.toNat ∧
      8 ≤ (mk 7 0x7F [] []).pcnt.toNat + 1 ∧ (mk 7 0x7F [] []).pushReady Config.depths 1 = true :=
  ⟨rfl, by decide, by decide, rfl⟩

/-- The clause that keeps the bits, at its boundary `t = 7`. -/
theorem witness_PushFollowsItsClosedForm_keeps :
    (Instr.push 1 1).wellFormed = true ∧ (mk 6 0x3F [] []).pacc.toNat < 2 ^ (mk 6 0x3F [] []).pcnt.toNat ∧
      ¬ 8 ≤ (mk 6 0x3F [] []).pcnt.toNat + 1 ∧ (mk 6 0x3F [] []).pushReady Config.depths 1 = true :=
  ⟨rfl, by decide, by decide, rfl⟩

theorem witness_TwoPushesAreOnePush : 3 + 5 ≤ 8 ∧ (7 : Byte).toNat < 2 ^ 3 ∧ (31 : Byte).toNat < 2 ^ 5 := by decide

theorem witness_FlushPadsTheUnfinishedGroup :
    (mk 1 1 [] []).flushReady Config.depths = true ∧ (mk 1 1 [] []).pcnt ≠ 0 ∧
      (mk 0 0 [] []).flushReady Config.depths = true ∧ (mk 0 0 [] []).pcnt = 0 :=
  ⟨rfl, by decide, rfl, rfl⟩

theorem witness_FlushIsPushingZeroBits : (mk 7 0x7F [] []).pcnt ≠ 0 := by decide

theorem witness_ClearResetsTheRegistersOnly : exec .clear (mk 3 5 [] []) = .next (mk 0 0 [] []) := rfl

theorem witness_PushedBitsAreEmittedInGroupsOfEight :
    (mk 0 0 [] []).pcnt = 0 ∧ (mk 0 0 [] []).pacc = 0 ∧ (mk 7 0 [] []).pcnt.toNat + 1 = 8 := by decide

theorem witness_SerializerAndPackerShareNoState :
    (∃ t, exec (.ser 0x41) (mk 3 5 [] []) = .next t) ∧ (∃ t, exec (.push 8 0x41) (mk 3 5 [] []) = .next t) ∧
      ∃ t, exec .flush (mk 3 5 [] []) = .next t := ⟨⟨_, rfl⟩, ⟨_, rfl⟩, ⟨_, rfl⟩⟩

theorem witness_ErrorWordsRecordTheFirstCause_records :
    (mk 3 6 [0x2004] []).nextTurn = .cmd ∧ (mk 3 6 [0x2004] []).presented = some 0x2004 ∧
      decode 0x2004 = .error .reservedNonzero := by decide

theorem witness_ErrorWordsRecordTheFirstCause_keeps :
    ∃ s t : State, step s = .next t ∧ s.ecause ≠ 0 ∧ s.nextTurn ≠ .reset ∧ s.transfers ≠ some 0x4000 :=
  ⟨{ mk 3 6 [0x5000] [] with ecause := 2 }, _, rfl, by decide, by decide, by decide⟩

theorem witness_ErrIsSetByErrorsAndClearedByClearOrReset :
    (∃ t, execError .illegalOp (mk 0 0 [0x5000] []) = .next t) ∧
      (∃ s t : State, step s = .next t ∧ s.err = true ∧ t.err = false) ∧ ∃ t, exec .nop (mk 0 0 [] []) = .next t :=
  ⟨⟨_, rfl⟩, ⟨{ mk 0 0 [0x4000] [] with ecause := 1 }, _, rfl, by decide, by decide⟩, ⟨_, rfl⟩⟩

theorem witness_StatusShowsTheRegisters :
    ∃ s t : State, step s = .next t ∧ s.nextTurn ≠ .cmd ∧ s.nextTurn ≠ .reset :=
  ⟨mk 3 5 [] [.readStatus], _, rfl, by decide, by decide⟩

theorem witness_OnlyTheirWritersChangeTheState_packer :
    ∃ s t : State, step s = .next t ∧ s.nextTurn ≠ .reset ∧ (t.pacc ≠ s.pacc ∨ t.pcnt ≠ s.pcnt) :=
  ⟨mk 0 0 [0x2001] [], _, rfl, by decide, by decide⟩

theorem witness_OnlyTheirWritersChangeTheState_ecause :
    ∃ s t : State, step s = .next t ∧ s.nextTurn ≠ .reset ∧ t.ecause ≠ s.ecause :=
  ⟨mk 0 0 [0x5000] [], _, rfl, by decide, by decide⟩

theorem witness_OnlyTheirWritersChangeTheState_boq :
    ∃ s t : State, step s = .next t ∧ s.nextTurn ≠ .reset ∧ t.boq ≠ s.boq :=
  ⟨mk 0 0 [0x1041] [], _, rfl, by decide, by decide⟩

theorem witness_OnlyTheirWritersChangeTheState_yoq :
    ∃ s t : State, step s = .next t ∧ s.nextTurn ≠ .reset ∧ t.yoq ≠ s.yoq :=
  ⟨mk 0 0 [0x2741] [], _, rfl, by decide, by decide⟩

theorem witness_TakesRemoveTheHead :
    (mk 0 0 [] [.takeBit]).nextTurn = .takeBit ∧ ({ mk 0 0 [] [.takeBit] with boq := [true] } : State).boq = [true] ∧
      (mk 0 0 [] [.takeByte]).nextTurn = .takeByte ∧
      ({ mk 0 0 [] [.takeByte] with yoq := [9] } : State).yoq = [9] ∧
      (mk 0 0 [] [.takeBit]).boq = [] ∧ (mk 0 0 [] [.takeByte]).yoq = [] := by decide

theorem witness_StatusReadsHaveNoSideEffect :
    (mk 3 5 [] [.readStatus, .readStatus]).turns = List.replicate 2 .readStatus ++ [] := rfl

theorem witness_WithdrawnWordIsNotExecuted : (mk 0 0 [0x1041] [.withdraw]).nextTurn = .withdraw := rfl

theorem witness_ResetEventEmptiesTheBlock :
    (mk 3 5 [0x1041] [.reset]).nextTurn = .reset ∧
      ∃ s t : State, step s = .next t ∧ s.nextTurn ≠ .reset ∧ s.nextTurn ≠ .takeBit ∧ s.nextTurn ≠ .takeByte :=
  ⟨rfl, mk 0 0 [0x1041] [], _, rfl, by decide, by decide, by decide⟩

/-- A state with no output waiting meets the invariant when its packer does. -/
theorem inv_of_empty_fifos (s : State) (hp : s.pacc.toNat < 2 ^ s.pcnt.toNat) (he : s.ecause ≠ 3) (hb : s.boq = [])
    (hy : s.yoq = []) : s.Inv := by
  refine ⟨hp, he, ?_, ?_⟩
  · rw [hb]; exact fun _ _ => Nat.zero_le _
  · rw [hy]; exact fun _ _ => Nat.zero_le _

theorem witness_EveryStepKeepsTheInvariant : ∃ s t : State, s.Inv ∧ step s = .next t :=
  ⟨mk 3 5 [0x2741] [], _, inv_of_empty_fifos _ (by decide) (by decide) rfl rfl, rfl⟩

theorem witness_BytesToBitsExpandsEachByte : 1 < [(0x41 : Byte), 0x42].length ∧ 7 < 8 := by decide

theorem witness_BitsToBytesPadsTheEndWithZeros : 0 < (bitsToBytes [true]).length ∧ 7 < 8 := by decide

theorem witness_PackingInvertsSerializing : (mk 0 0 [] []).pcnt = 0 ∧ (mk 0 0 [] []).pacc = 0 := by decide

theorem witness_AlignedStringsAreNotPadded :
    (bytesToBits [0x41]).length % 8 = 0 ∧ (mk 0 0 [] []).pcnt = 0 ∧ (mk 0 0 [] []).pacc = 0 := by decide

theorem witness_EmptyStringEmitsNothing : (mk 0 0 [] []).pcnt = 0 := by decide

theorem witness_SerRunsRealizeBytesToBits :
    ∃ s t : State, run 2 s = .next t ∧ (∀ u ∈ s.turns.take 2, u ≠ .reset) ∧ (∀ u ∈ s.turns.take 2, u ≠ .takeBit) ∧
      serializedBytes (acceptedWords 2 s) = [0x41] :=
  ⟨mk 0 0 [0x1041, 0x5000] [], _, rfl, by decide, by decide, rfl⟩

theorem witness_PackRunsRealizeBitsToBytes :
    ∃ s t : State, s.Inv ∧ s.pcnt = 0 ∧ run 2 s = .next t ∧ (∀ u ∈ s.turns.take 2, u ≠ .reset) ∧
      acceptedWords 2 s = [0x2205] ++ [0x3000] ∧ ∀ i ∈ commandsOf [0x2205], i ≠ .flush ∧ i ≠ .clear :=
  ⟨mk 0 0 [0x2205, 0x3000] [], _, inv_of_empty_fifos _ (by decide) (by decide) rfl rfl, rfl, rfl, by decide, rfl,
    by decide⟩

theorem witness_BeforeFlushOnlyCompleteGroupsAreOut :
    ∃ s t : State, s.Inv ∧ s.pcnt = 0 ∧ run 3 s = .next t ∧ (∀ u ∈ s.turns.take 3, u ≠ .reset) ∧
      acceptedWords 3 s = [0x2741, 0x2205] ∧ ∀ i ∈ commandsOf [0x2741, 0x2205], i ≠ .flush ∧ i ≠ .clear :=
  ⟨mk 0 0 [0x2741, 0x2205] [.cmd, .cmd, .takeByte], _, inv_of_empty_fifos _ (by decide) (by decide) rfl rfl, rfl, rfl,
    by decide, rfl, by decide⟩

end Sys2Proof.Tests
end

section
/-!
The range of the depth parameters (spec/00_scope.md R6): what `FifoDepth.capacity` gives for each depth, and which
capacities it reaches.
-/
namespace Sys2Proof

@[simp] theorem FifoDepth.capacity_unbounded (least : Nat) : FifoDepth.unbounded.capacity least = none := rfl

@[simp] theorem FifoDepth.capacity_leastPlus (least k : Nat) :
    (FifoDepth.leastPlus k).capacity least = some (least + k) := rfl

theorem FifoDepth.le_of_capacity_eq_some {least cap : Nat} {d : FifoDepth} (h : d.capacity least = some cap) :
    least ≤ cap := by
  cases d with
  | unbounded => simp at h
  | leastPlus k =>
    have hcap : least + k = cap := by simpa using h
    exact hcap ▸ Nat.le_add_right least k

theorem FifoDepth.capacity_leastPlus_sub {least cap : Nat} (h : least ≤ cap) :
    (FifoDepth.leastPlus (cap - least)).capacity least = some cap := by
  rw [capacity_leastPlus, Nat.add_sub_cancel' h]

/-- Settles O15: no capacity lies below the least depth, and a legal capacity `cap` is that of
`.leastPlus (cap - least)`. -/
theorem depthsAreTheLegalOnes : Obligations.DepthsAreTheLegalOnes := by
  refine ⟨fun least cap => ⟨?_, fun h => ?_⟩, ?_, rfl, rfl⟩
  · rintro ⟨d, hd⟩
    exact FifoDepth.le_of_capacity_eq_some hd
  · exact ⟨.leastPlus (cap - least), FifoDepth.capacity_leastPlus_sub h⟩
  · exact ⟨.unbounded, FifoDepth.capacity_unbounded⟩

end Sys2Proof
end

section
/-!
Acceptance (spec/10_state.md R27) as free places, STATUS and the output ports (R24, R25), the reset state (R30), and the
step of each turn of the host (R23).
-/
namespace Sys2Proof.Machine

/-! ### Room and acceptance -/

/-- R27: room for at least one element, said with `free`, the capacity minus the length. -/
theorem fifoHasRoom_iff_le_free {least len need : Nat} {d : FifoDepth} (hneed : 0 < need) :
    fifoHasRoom least d len need = true ↔ ∀ cap, d.capacity least = some cap → need ≤ cap - len := by
  have hfree (cap : Nat) : len + need ≤ cap ↔ need ≤ cap - len := by omega
  simp only [fifoHasRoom_iff, hfree]

theorem State.serReady_iff (c : Depths) (s : State) :
    s.serReady c = true ↔ ∀ cap, c.ser.capacity 8 = some cap → 8 ≤ cap - s.boq.length :=
  fifoHasRoom_iff_le_free (by decide)

theorem State.byteRoom_one_iff (c : Depths) (s : State) :
    s.byteRoom c 1 = true ↔ ∀ cap, c.pack.capacity 1 = some cap → 1 ≤ cap - s.yoq.length :=
  fifoHasRoom_iff_le_free (by decide)

theorem State.pushReady_iff (c : Depths) (s : State) (n : Nat) :
    s.pushReady c n = true ↔ (8 ≤ s.pcnt.toNat + n → s.byteRoom c 1 = true) :=
  ite_eq_right_iff

theorem State.flushReady_iff (c : Depths) (s : State) :
    s.flushReady c = true ↔ (s.pcnt ≠ 0 → s.byteRoom c 1 = true) :=
  ite_eq_right_iff

/-- Settles O16: PUSH and FLUSH ask for a free byte exactly when they would emit one. -/
theorem acceptanceIsRoomForTheOutput : Obligations.AcceptanceIsRoomForTheOutput := by
  refine ⟨fun c s => s.serReady_iff c, fun c s n => ?_, fun c s => ?_, fun c s w => ?_⟩
  · rw [State.pushReady_iff, State.byteRoom_one_iff]
  · rw [State.flushReady_iff, State.byteRoom_one_iff]
  · rw [State.accepts]
    cases decode w with
    | cmd i => cases i <;> rfl
    | error c => rfl

/-- Settles O17: each of the three is an `issue`, which answers the same state when it is not ready. -/
theorem heldCommandsHaveNoEffect : Obligations.HeldCommandsHaveNoEffect := by
  refine ⟨fun c d s h => ?_, fun c n v s h => ?_, fun c s h => ?_, fun _ _ => rfl, fun _ _ _ => rfl, fun _ => rfl⟩
  · rw [serAt, h, issue_false]
  · rw [pushAt, h, issue_false]
  · rw [flushAt, h, issue_false]

/-! ### STATUS, ERR and the output ports -/

theorem State.err_iff (s : State) : s.err = true ↔ s.ecause ≠ 0 := decide_eq_true_iff

theorem State.status_pacc (s : State) : s.status.extractLsb' 0 7 = s.pacc := by
  apply BitVec.eq_of_getLsbD_eq
  intro k hk
  simp only [State.status, BitVec.getLsbD_extractLsb', BitVec.getLsbD_append]
  simp [hk]

theorem State.status_pcnt (s : State) : s.status.extractLsb' 8 3 = s.pcnt := by
  apply BitVec.eq_of_getLsbD_eq
  intro k hk
  simp only [State.status, BitVec.getLsbD_extractLsb', BitVec.getLsbD_append]
  interval_cases k <;> simp

theorem State.status_ecause (s : State) : s.status.extractLsb' 13 2 = s.ecause := by
  apply BitVec.eq_of_getLsbD_eq
  intro k hk
  simp only [State.status, BitVec.getLsbD_extractLsb', BitVec.getLsbD_append]
  interval_cases k <;> simp

theorem State.status_err (s : State) : s.status.getLsbD 12 = s.err := by
  simp only [State.status, BitVec.getLsbD_append]
  simp

theorem State.status_reserved (s : State) :
    s.status.getLsbD 7 = false ∧ s.status.getLsbD 11 = false ∧ s.status.getLsbD 15 = false := by
  simp only [State.status, BitVec.getLsbD_append]
  simp

/-- STATUS shows nothing but PACC, PCNT and ECAUSE. -/
theorem State.status_congr {s t : State} (hacc : t.pacc = s.pacc) (hcnt : t.pcnt = s.pcnt)
    (hcause : t.ecause = s.ecause) : t.status = s.status := by
  simp [State.status, State.err, hacc, hcnt, hcause]

theorem State.boBit_cons {s : State} {b : Bit} {rest : List Bit} (h : s.boq = b :: rest) (time : Nat) :
    s.boBit time = b := by simp [State.boBit, h]

theorem State.yoByte_cons {s : State} {v : Byte} {rest : List Byte} (h : s.yoq = v :: rest) (time : Nat) :
    s.yoByte time = v := by simp [State.yoByte, h]

/-- Settles O14: while a FIFO is not empty its data port is its head, and `err` is bit 12 of STATUS. -/
theorem portsShowTheState : Obligations.PortsShowTheState := by
  refine fun s => ⟨?_, ?_, fun time b rest h => State.boBit_cons h time, fun time v rest h => State.yoByte_cons h time,
    fun _ => rfl, rfl, s.status_err⟩
  · simp [State.boValid]
  · simp [State.yoValid]

/-! ### The reset state -/

/-- R30: nothing is held in the reset state, since the FIFOs are empty and a PUSH of a whole byte completes no more
than one group. -/
theorem State.reset_readyFor (c : Depths) (i : Instr) : State.reset.readyFor c i = true := by
  have hbits : State.reset.bitRoom c 8 = true := fifoHasRoom_least c.ser (Nat.le_refl 8)
  have hbyte : State.reset.byteRoom c 1 = true := fifoHasRoom_least c.pack (Nat.le_refl 1)
  cases i with
  | nop | clear => rfl
  | ser d => exact hbits
  | push n v => exact (State.pushReady_iff c _ n).2 fun _ => hbyte
  | flush => exact (State.flushReady_iff c _).2 fun _ => hbyte

theorem State.reset_accepts (c : Depths) (w : CmdWord) : State.reset.accepts c w = true := by
  rw [State.accepts]
  cases decode w with
  | cmd i => exact State.reset_readyFor c i
  | error c => rfl

/-- Settles O36: the registers by evaluation, acceptance for any depths by `State.reset_accepts`. -/
theorem resetStateIsEmpty : Obligations.ResetStateIsEmpty :=
  ⟨rfl, rfl, rfl, rfl, rfl, by decide, rfl, rfl, by decide, State.reset_accepts⟩

/-! ### The step of a turn -/

theorem step_eq_runTurn {s : State} {u : Turn} (h : s.nextTurn = u) : step s = runTurn u s.dropTurn := by
  rw [step, runNextTurn, h]

/-- R43: a word's execution waits for what acceptance asks of it and then has its effect at once. -/
theorem execDecoded_eq_issue (d : Decoded) (s : State) :
    execDecoded d s = issue (s.acceptsDecoded Config.depths d) (fun t => t.effectOfDecoded d) s := by
  cases d with
  | cmd i => exact exec_eq_issue i s
  | error c => rfl

theorem transferCmd_eq_execDecoded {s : State} {w : CmdWord} (h : s.presented = some w) :
    transferCmd s = execDecoded (decode w) s := by
  simp [transferCmd, h]

/-- R23: the command port's step executes the presented word after the turn is used up. -/
theorem step_eq_execDecoded {s : State} {w : CmdWord} (hturn : s.nextTurn = .cmd) (hw : s.presented = some w) :
    step s = execDecoded (decode w) s.dropTurn := by
  rw [step_eq_runTurn hturn]
  exact transferCmd_eq_execDecoded (s := s.dropTurn) hw

/-- R27: a word that is not accepted has no effect. -/
theorem execDecoded_held {s : State} {w : CmdWord} (h : s.accepts Config.depths w = false) :
    execDecoded (decode w) s = .next s := by
  rw [State.accepts] at h
  rw [execDecoded_eq_issue, h, issue_false]

/-- Settles O11: the word's execution is an `issue`, so it has no effect when the word is not accepted. -/
theorem presentedWordRunsOrIsHeld : Obligations.PresentedWordRunsOrIsHeld := by
  intro s w hturn hw
  rw [step_eq_execDecoded hturn hw]
  split
  case isTrue => rfl
  case isFalse h => exact execDecoded_held (s := s.dropTurn) (Bool.eq_false_iff.2 h)

/-- Settles O10: `exec` itself waits for room, so this needs no case split on acceptance. -/
theorem stepRunsTheDecodedCommand : Obligations.StepRunsTheDecodedCommand := by
  intro s w i hturn hw _ hdec
  rw [step_eq_execDecoded hturn hw, hdec]
  rfl

@[simp] theorem State.present_nextTurn (s : State) (w : CmdWord) : (s.present w).nextTurn = .cmd := by
  unfold State.present
  split
  case isTrue h => exact h
  case isFalse => rfl

@[simp] theorem State.present_presented (s : State) (w : CmdWord) : (s.present w).presented = some w := rfl

theorem State.present_dropTurn (s : State) (w : CmdWord) :
    (s.present w).dropTurn =
      { s with cmds := w :: s.cmds, turns := if s.nextTurn = .cmd then s.turns.tail else s.turns } := by
  by_cases h : s.nextTurn = .cmd <;> simp [State.present, State.dropTurn, h]

theorem decodeTableWord_eq_some {nbits w : Nat} {i : Instr} (h : decodeTableWord nbits w = some i) :
    decode (tableWord nbits w) = .cmd i := by
  unfold decodeTableWord at h
  split at h <;> simp_all

@[simp] theorem tableWord_sixteen (w : Nat) : tableWord 16 w = BitVec.ofNat 16 w := by
  apply BitVec.eq_of_toNat_eq
  simp [tableWord]

/-- Settles O13: a placed word is presented on the command port's turn. -/
theorem fetchWordIsTheNextCommand : Obligations.FetchWordIsTheNextCommand := by
  intro s w i h
  have hdec := decodeTableWord_eq_some h
  rw [State.withFetchWord, step_eq_execDecoded (s.present_nextTurn _) (s.present_presented _), hdec,
    State.present_dropTurn, tableWord_sixteen]
  rfl

/-! ### Takes and reads -/

theorem State.foldl_byteOut_eq (vs : List Byte) (s : State) :
    vs.foldl State.byteOut s = { s with yoq := s.yoq ++ vs } := by
  induction vs generalizing s with
  | nil => simp
  | cons v rest ih => simp [ih, State.byteOut]

theorem State.takeBit_cons {s : State} {b : Bit} {rest : List Bit} (h : s.boq = b :: rest) :
    s.takeBit = ({ s with boq := rest }).answer (.bit b) := by
  simp [State.takeBit, h]

theorem State.takeBit_nil {s : State} (h : s.boq = []) : s.takeBit = s := by
  simp [State.takeBit, h]

theorem State.takeByte_cons {s : State} {v : Byte} {rest : List Byte} (h : s.yoq = v :: rest) :
    s.takeByte = ({ s with yoq := rest }).answer (.byte v) := by
  simp [State.takeByte, h]

theorem State.takeByte_nil {s : State} (h : s.yoq = []) : s.takeByte = s := by
  simp [State.takeByte, h]

/-- Settles O33. The two clauses on the order of elements are the folds of `BitOut` and `ByteOut`. -/
theorem takesRemoveTheHead : Obligations.TakesRemoveTheHead := by
  refine ⟨fun s b rest hturn hq => ?_, fun s v rest hturn hq => ?_, fun s hturn hq => ?_, fun s hturn hq => ?_,
    fun s bs => s.bitOutAll_eq bs, fun s vs => s.foldl_byteOut_eq vs⟩
  · rw [step_eq_runTurn hturn, runTurn, State.takeBit_cons (s := s.dropTurn) hq]; rfl
  · rw [step_eq_runTurn hturn, runTurn, State.takeByte_cons (s := s.dropTurn) hq]; rfl
  · rw [step_eq_runTurn hturn, runTurn, State.takeBit_nil (s := s.dropTurn) hq]; rfl
  · rw [step_eq_runTurn hturn, runTurn, State.takeByte_nil (s := s.dropTurn) hq]; rfl

/-- One planned read of STATUS: its word is returned, and nothing of the block changes. -/
theorem step_readStatus {s : State} (h : s.nextTurn = .readStatus) :
    step s = .next (s.dropTurn.answer (.status s.status)) := step_eq_runTurn h

theorem run_succ {s t : State} (k : Nat) (h : step s = .next t) : run (k + 1) s = run k t := by
  rw [run, h]

/-- Settles O34, by induction on the number of reads: the first leaves a state that shows the same STATUS and has one
planned read less. -/
theorem statusReadsHaveNoSideEffect : Obligations.StatusReadsHaveNoSideEffect := by
  intro k
  induction k with
  | zero =>
    intro s rest h
    have hrest : s.turns = rest := h
    simp [run, ← hrest]
  | succ k ih =>
    intro s rest h
    have hturn : s.nextTurn = .readStatus := by simp [State.nextTurn, h, List.replicate_succ]
    have hrest : (s.dropTurn.answer (.status s.status)).turns = List.replicate k .readStatus ++ rest := by
      simp [h, List.replicate_succ]
    have hstatus : (s.dropTurn.answer (.status s.status)).status = s.status := rfl
    rw [run_succ k (step_readStatus hturn), ih _ rest hrest, hstatus]
    simp [State.answer, State.dropTurn, List.replicate_succ]

end Sys2Proof.Machine
end

section
/-!
What a word that decodes to a command is (spec/30_encoding.md R40 to R43): its opcode, and its fields as the operands.
-/
namespace Sys2Proof

theorem opField_append_lowField (w : CmdWord) : opField w ++ lowField w = w := by
  apply BitVec.eq_of_getLsbD_eq
  intro k hk
  simp only [opField, lowField, BitVec.getLsbD_append, BitVec.getLsbD_extractLsb']
  by_cases h : k < 12
  · simp [h]
  · have hsub : 12 + (k - 12) = k := by omega
    have hlt : k - 12 < 4 := by omega
    simp [h, hsub, hlt]

theorem decodeBare_eq_cmd {i j : Instr} {w : CmdWord} (h : decodeBare i w = .cmd j) : i = j ∧ lowField w = 0 := by
  unfold decodeBare at h
  split at h
  case isTrue hlow => exact ⟨Decoded.cmd.inj h, hlow⟩
  case isFalse => cases h

theorem decodeSer_eq_cmd {i : Instr} {w : CmdWord} (h : decodeSer w = .cmd i) : i = .ser (dField w) := by
  unfold decodeSer at h
  split at h
  case isTrue => exact (Decoded.cmd.inj h).symm
  case isFalse => cases h

theorem decodePush_eq_cmd {i : Instr} {w : CmdWord} (h : decodePush w = .cmd i) :
    i = .push (pushCount w) (pushBitsField (pushCount w) w) := by
  unfold decodePush at h
  split at h
  case isTrue => cases h
  case isFalse => exact (Decoded.cmd.inj h).symm

/-- R43: a word that decodes to a command has that command's opcode, and its operands are the word's fields. -/
theorem decode_eq_cmd {w : CmdWord} {i : Instr} (h : decode w = .cmd i) :
    ((opField w).toNat = 0 ∧ i = .nop ∧ lowField w = 0) ∨
    ((opField w).toNat = 1 ∧ i = .ser (dField w)) ∨
    ((opField w).toNat = 2 ∧ i = .push (pushCount w) (pushBitsField (pushCount w) w)) ∨
    ((opField w).toNat = 3 ∧ i = .flush ∧ lowField w = 0) ∨
    ((opField w).toNat = 4 ∧ i = .clear ∧ lowField w = 0) := by
  unfold decode at h
  split at h
  case h_1 hop => obtain ⟨rfl, hlow⟩ := decodeBare_eq_cmd h; simp [hop, hlow]
  case h_2 hop => simp [hop, decodeSer_eq_cmd h]
  case h_3 hop => simp [hop, decodePush_eq_cmd h]
  case h_4 hop => obtain ⟨rfl, hlow⟩ := decodeBare_eq_cmd h; simp [hop, hlow]
  case h_5 hop => obtain ⟨rfl, hlow⟩ := decodeBare_eq_cmd h; simp [hop, hlow]
  case h_6 => cases h

/-- R42: CLEAR has one word. -/
theorem eq_of_decode_eq_clear {w : CmdWord} (h : decode w = .cmd .clear) : w = 0x4000 := by
  obtain ⟨-, ⟨⟩, -⟩ | ⟨-, ⟨⟩⟩ | ⟨-, ⟨⟩⟩ | ⟨-, ⟨⟩, -⟩ | ⟨hop, -, hlow⟩ := decode_eq_cmd h
  have hfour : opField w = 4 := BitVec.eq_of_toNat_eq hop
  rw [← opField_append_lowField w, hfour, hlow]
  rfl

theorem pushCount_le_eight (w : CmdWord) : pushCount w ≤ 8 := by
  have h := (w.extractLsb' 8 3).isLt
  unfold pushCount
  omega

/-- R41: a decoded PUSH has at most 8 bits. -/
theorem count_le_eight_of_decode_eq_push {w : CmdWord} {n : Nat} {v : Byte} (h : decode w = .cmd (.push n v)) :
    n ≤ 8 := by
  obtain ⟨-, ⟨⟩, -⟩ | ⟨-, ⟨⟩⟩ | ⟨-, ⟨⟩⟩ | ⟨-, ⟨⟩, -⟩ | ⟨-, ⟨⟩, -⟩ := decode_eq_cmd h
  exact pushCount_le_eight w

end Sys2Proof
end

section
/-!
Who writes each piece of the block's state (spec/10_state.md R14 to R18): what the effect of a word leaves unchanged,
and what that says of a step. With it, ERR (R22) and STATUS (R24) under steps.
-/
namespace Sys2Proof.Machine

/-! ### The writers among the words -/

/-- R14, R15: the words that write PACC or PCNT. -/
theorem State.effectOfDecoded_writes_packer {s : State} {d : Decoded}
    (h : (s.effectOfDecoded d).pacc ≠ s.pacc ∨ (s.effectOfDecoded d).pcnt ≠ s.pcnt) :
    ∃ i, d = .cmd i ∧ ((∃ n v, i = .push n v) ∨ i = .flush ∨ i = .clear) := by
  cases d with
  | error c => simp [State.effectOfDecoded] at h
  | cmd i =>
    cases i with
    | nop | ser d => simp [State.effectOfDecoded, State.effectOf] at h
    | push n v => exact ⟨_, rfl, .inl ⟨n, v, rfl⟩⟩
    | flush => exact ⟨_, rfl, .inr (.inl rfl)⟩
    | clear => exact ⟨_, rfl, .inr (.inr rfl)⟩

/-- R16: the words that write ECAUSE. -/
theorem State.effectOfDecoded_writes_ecause {s : State} {d : Decoded} (h : (s.effectOfDecoded d).ecause ≠ s.ecause) :
    d = .cmd .clear ∨ ∃ c, d = .error c := by
  cases d with
  | error c => exact .inr ⟨c, rfl⟩
  | cmd i =>
    cases i with
    | nop | ser d | push n v | flush => simp [State.effectOfDecoded, State.effectOf] at h
    | clear => exact .inl rfl

/-- R17: the words that write BOQ. -/
theorem State.effectOfDecoded_writes_boq {s : State} {d : Decoded} (h : (s.effectOfDecoded d).boq ≠ s.boq) :
    ∃ b, d = .cmd (.ser b) := by
  cases d with
  | error c => simp [State.effectOfDecoded] at h
  | cmd i =>
    cases i with
    | nop | push n v | flush | clear => simp [State.effectOfDecoded, State.effectOf] at h
    | ser b => exact ⟨b, rfl⟩

/-- R18: the words that write YOQ. -/
theorem State.effectOfDecoded_writes_yoq {s : State} {d : Decoded} (h : (s.effectOfDecoded d).yoq ≠ s.yoq) :
    ∃ i, d = .cmd i ∧ ((∃ n v, i = .push n v) ∨ i = .flush) := by
  cases d with
  | error c => simp [State.effectOfDecoded] at h
  | cmd i =>
    cases i with
    | nop | ser d | clear => simp [State.effectOfDecoded, State.effectOf] at h
    | push n v => exact ⟨_, rfl, .inl ⟨n, v, rfl⟩⟩
    | flush => exact ⟨_, rfl, .inr rfl⟩

/-! ### Steps -/

theorem State.transfers_of_accepts {s : State} {w : CmdWord} (hturn : s.nextTurn = .cmd) (hw : s.presented = some w)
    (hacc : s.accepts Config.depths w = true) : s.transfers = some w := by
  simp [State.transfers, hturn, hw, hacc]

theorem State.nextTurn_of_transfers {s : State} {w : CmdWord} (h : s.transfers = some w) : s.nextTurn = .cmd := by
  by_contra hturn
  simp [State.transfers, hturn] at h

/-- A step other than Reset that transfers no word can change the block only by a take, which writes its own FIFO. -/
structure TakesAtMost (s t : State) : Prop where
  pacc : t.pacc = s.pacc
  pcnt : t.pcnt = s.pcnt
  ecause : t.ecause = s.ecause
  boq : s.nextTurn ≠ .takeBit → t.boq = s.boq
  yoq : s.nextTurn ≠ .takeByte → t.yoq = s.yoq

/-- R12, R23: a step other than Reset has the whole effect of the word it transfers, or transfers none and does at most
a take. -/
theorem step_transfers_or_takes {s t : State} (h : step s = .next t) (hreset : s.nextTurn ≠ .reset) :
    (∃ w, s.transfers = some w ∧ t = (s.dropTurn.effectOfDecoded (decode w)).dropCmd) ∨ TakesAtMost s t := by
  obtain ⟨-, -, rfl⟩ | ⟨w, hturn, hw, hacc, rfl⟩ | ⟨w, -, -, -, rfl⟩ | ⟨hturn, rfl⟩ | ⟨hturn, rfl⟩ | ⟨-, rfl⟩ |
    ⟨hturn, -⟩ | ⟨-, rfl⟩ := step_cases h
  · exact .inr ⟨rfl, rfl, rfl, fun _ => rfl, fun _ => rfl⟩
  · exact .inl ⟨w, State.transfers_of_accepts hturn hw hacc, rfl⟩
  · exact .inr ⟨rfl, rfl, rfl, fun _ => rfl, fun _ => rfl⟩
  · exact .inr ⟨by simp, by simp, by simp, fun hne => absurd hturn hne, fun _ => by simp⟩
  · exact .inr ⟨by simp, by simp, by simp, fun _ => by simp, fun hne => absurd hturn hne⟩
  · exact .inr ⟨rfl, rfl, rfl, fun _ => rfl, fun _ => rfl⟩
  · exact absurd hturn hreset
  · exact .inr ⟨rfl, rfl, rfl, fun _ => rfl, fun _ => rfl⟩

/-- Settles O32: the transferred word is among the writers of what it changed, and a step that transfers none is a take
of the FIFO that changed. -/
theorem onlyTheirWritersChangeTheState : Obligations.OnlyTheirWritersChangeTheState := by
  intro s t h hreset
  obtain ⟨w, hw, rfl⟩ | hframe := step_transfers_or_takes h hreset
  · refine ⟨fun hne => ?_, fun hne => ?_, fun hne => .inr ?_, fun hne => .inr ?_⟩
    · obtain ⟨i, hi, hwriter⟩ := State.effectOfDecoded_writes_packer (s := s.dropTurn) hne
      exact ⟨w, i, hw, hi, hwriter⟩
    · exact ⟨w, hw, State.effectOfDecoded_writes_ecause (s := s.dropTurn) hne⟩
    · obtain ⟨d, hd⟩ := State.effectOfDecoded_writes_boq (s := s.dropTurn) hne
      exact ⟨w, d, hw, hd⟩
    · obtain ⟨i, hi, hwriter⟩ := State.effectOfDecoded_writes_yoq (s := s.dropTurn) hne
      exact ⟨w, i, hw, hi, hwriter⟩
  · refine ⟨fun hne => ?_, fun hne => absurd hframe.ecause hne, fun hne => .inl ?_, fun hne => .inl ?_⟩
    · exact absurd hne (by simp [hframe.pacc, hframe.pcnt])
    · by_contra hturn
      exact hne (hframe.boq hturn)
    · by_contra hturn
      exact hne (hframe.yoq hturn)

/-- Settles O31: an event that is neither the command port's nor Reset does at most a take, which leaves the three
registers that STATUS shows. -/
theorem statusShowsTheRegisters : Obligations.StatusShowsTheRegisters := by
  refine ⟨fun s => ?_, fun s t h hcmd hreset => ?_⟩
  · obtain ⟨h7, h11, h15⟩ := s.status_reserved
    exact ⟨s.status_pacc, h7, s.status_pcnt, h11, s.status_err, s.status_ecause, h15⟩
  · obtain ⟨w, hw, -⟩ | hframe := step_transfers_or_takes h hreset
    · exact absurd (State.nextTurn_of_transfers hw) hcmd
    · exact State.status_congr hframe.pacc hframe.pcnt hframe.ecause

/-! ### ERR -/

/-- R70: after an error, the first or a later one, ERR is 1. -/
theorem State.raiseCmdError_err (s : State) (c : Cause) : (s.raiseCmdError c).err = true := by
  rw [State.err_iff]
  obtain ⟨-, heq⟩ | ⟨hne, heq⟩ := s.raiseCmdError_cases c <;> rw [heq]
  · exact (causeCode_legal c).1
  · exact hne

theorem execError_err {s t : State} {c : Cause} (h : execError c s = .next t) : t.err = true := by
  rw [execError, issue_true] at h
  cases h
  exact s.raiseCmdError_err c

/-- R22: only Reset and an accepted CLEAR clear ERR. -/
theorem step_clears_err {s t : State} (h : step s = .next t) (hs : s.err = true) (ht : t.err = false) :
    s.nextTurn = .reset ∨ s.transfers = some 0x4000 := by
  by_cases hreset : s.nextTurn = .reset
  · exact .inl hreset
  have hne : t.ecause ≠ s.ecause := by
    intro heq
    have hts : t.err = s.err := by rw [State.err, heq, State.err]
    simp [hs, ht] at hts
  obtain ⟨w, hw, rfl⟩ | hframe := step_transfers_or_takes h hreset
  · obtain hclear | ⟨c, herror⟩ := State.effectOfDecoded_writes_ecause (s := s.dropTurn) hne
    · exact .inr (eq_of_decode_eq_clear hclear ▸ hw)
    · have herr : (s.dropTurn.effectOfDecoded (decode w)).err = true := by
        rw [herror]
        exact State.raiseCmdError_err _ c
      exact absurd (herr.symm.trans ht) (by decide)
  · exact absurd hframe.ecause hne

/-! ### No command reads ECAUSE -/

theorem State.withEcause_push1 (s : State) (e : BitVec 2) (b : Bit) :
    (s.withEcause e).push1 b = (s.push1 b).withEcause e := by
  obtain ⟨h, heq⟩ | ⟨h, heq⟩ := s.push1_cases b
  · rw [heq, State.push1_full (s := s.withEcause e) b h]
    rfl
  · rw [heq, State.push1_partial (s := s.withEcause e) b h]
    rfl

theorem State.withEcause_pushAll (s : State) (e : BitVec 2) (bits : List Bit) :
    (s.withEcause e).pushAll bits = (s.pushAll bits).withEcause e := by
  induction bits generalizing s with
  | nil => rfl
  | cons b rest ih => rw [State.pushAll_cons, State.pushAll_cons, State.withEcause_push1, ih]

theorem State.withEcause_flushGroup (s : State) (e : BitVec 2) :
    (s.withEcause e).flushGroup = s.flushGroup.withEcause e := by
  obtain ⟨h, heq⟩ | ⟨h, heq⟩ := s.flushGroup_cases
  · rw [heq, State.flushGroup_boundary (s := s.withEcause e) h]
  · rw [heq, State.flushGroup_unfinished (s := s.withEcause e) h]
    rfl

theorem State.withEcause_readyFor (c : Depths) (s : State) (e : BitVec 2) (i : Instr) :
    (s.withEcause e).readyFor c i = s.readyFor c i := by cases i <;> rfl

/-- R22: a command other than CLEAR has the same effect whatever ECAUSE holds, and keeps it. -/
theorem State.withEcause_effectOf (s : State) (e : BitVec 2) {i : Instr} (hi : i ≠ .clear) :
    (s.withEcause e).effectOf i = (s.effectOf i).withEcause e := by
  cases i with
  | nop => rfl
  | ser d => simp only [State.effectOf, State.serialize_eq]; rfl
  | push n v => exact s.withEcause_pushAll e (pushBits n v)
  | flush => exact s.withEcause_flushGroup e
  | clear => exact absurd rfl hi

/-- R22, through the transfer: the answer differs only in ECAUSE, and for CLEAR in nothing. -/
theorem exec_withEcause {i : Instr} {s t : State} (e : BitVec 2) (h : exec i s = .next t) :
    exec i (s.withEcause e) = .next (if i = .clear then t else t.withEcause e) := by
  rw [exec_eq_issue] at h ⊢
  rw [State.withEcause_readyFor]
  by_cases hi : i = .clear
  · subst hi
    exact h
  · rw [if_neg hi]
    obtain ⟨hready, rfl⟩ | ⟨hheld, rfl⟩ := issue_next h
    · rw [hready, issue_true, State.withEcause_effectOf s e hi]
      rfl
    · rw [hheld, issue_false]

/-- Settles O30, clause by clause from the lemmas above. -/
theorem errIsSetByErrorsAndClearedByClearOrReset : Obligations.ErrIsSetByErrorsAndClearedByClearOrReset :=
  ⟨State.err_iff, fun s => ⟨s.status_err, s.status_err⟩, fun _ _ _ => execError_err, fun _ _ => step_clears_err,
    fun _ _ _ e h => exec_withEcause e h⟩

end Sys2Proof.Machine
end

section
/-!
The invariant of spec/10_state.md R26: PACC below `2^PCNT`, ECAUSE a cause code or 0, neither FIFO longer than its depth.
PUSH is the command to look at: it keeps the accumulator's bound bit by bit, and counting the groups that its bits
complete shows that the one free byte of its acceptance is enough.
-/
namespace Sys2Proof.Machine

/-! ### The accumulator -/

/-- R56: no bit is lost in the 8-bit sum. -/
theorem State.shiftedIn_toNat (s : State) (b : Bit) : (s.shiftedIn b).toNat = 2 * s.pacc.toNat + b.toNat := by
  have hacc := s.pacc.isLt
  have hb : b.toNat < 2 := Bool.toNat_lt b
  simp [State.shiftedIn, BitVec.toNat_add, Nat.shiftLeft_eq]
  omega

/-- R56: `Push1` keeps PACC below `2^PCNT`. -/
theorem State.push1_pacc_lt {s : State} (b : Bit) (h : s.pacc.toNat < 2 ^ s.pcnt.toNat) :
    (s.push1 b).pacc.toNat < 2 ^ (s.push1 b).pcnt.toNat := by
  obtain ⟨-, heq⟩ | ⟨hne, heq⟩ := s.push1_cases b
  · simp [heq]
  · have hcnt : (s.pcnt + 1).toNat = s.pcnt.toNat + 1 := by bv_omega
    have hb : b.toNat < 2 := Bool.toNat_lt b
    calc (s.push1 b).pacc.toNat
        = (2 * s.pacc.toNat + b.toNat) % 2 ^ 7 := by
          simp [heq, s.shiftedIn_toNat]
      _ ≤ 2 * s.pacc.toNat + b.toNat := Nat.mod_le _ _
      _ < 2 ^ (s.pcnt.toNat + 1) := by rw [Nat.pow_succ]; omega
      _ = 2 ^ (s.push1 b).pcnt.toNat := by rw [heq, State.withPacker_pcnt, hcnt]

theorem State.pushAll_pacc_lt {s : State} (bits : List Bit) (h : s.pacc.toNat < 2 ^ s.pcnt.toNat) :
    (s.pushAll bits).pacc.toNat < 2 ^ (s.pushAll bits).pcnt.toNat := by
  induction bits generalizing s with
  | nil => exact h
  | cons b rest ih => exact ih (State.push1_pacc_lt b h)

/-! ### How many bytes are emitted -/

/-- R56: `Push1` counts its bit in PCNT, modulo 8, and emits a byte when the count reaches 8. -/
theorem State.push1_counts (s : State) (b : Bit) :
    (s.push1 b).pcnt.toNat = (s.pcnt.toNat + 1) % 8 ∧
      (s.push1 b).yoq.length = s.yoq.length + (s.pcnt.toNat + 1) / 8 := by
  obtain ⟨h7, heq⟩ | ⟨hne, heq⟩ := s.push1_cases b
  · simp [heq, h7]
  · have hlt : s.pcnt.toNat + 1 < 8 := by bv_omega
    simp [heq, BitVec.toNat_add, Nat.div_eq_of_lt hlt]

/-- R56: pushed bits emit one byte for each group they complete, and PCNT counts the bits that are left. -/
theorem State.pushAll_counts (s : State) (bits : List Bit) :
    (s.pushAll bits).pcnt.toNat = (s.pcnt.toNat + bits.length) % 8 ∧
      (s.pushAll bits).yoq.length = s.yoq.length + (s.pcnt.toNat + bits.length) / 8 := by
  induction bits generalizing s with
  | nil =>
    have hcnt := s.pcnt.isLt
    simp
    omega
  | cons b rest ih =>
    obtain ⟨hcnt, hlen⟩ := s.push1_counts b
    obtain ⟨hcnt', hlen'⟩ := ih (s.push1 b)
    rw [State.pushAll_cons, hcnt', hlen', hcnt, hlen, List.length_cons]
    omega

/-- R57: PUSH emits one byte for each group it completes. -/
theorem State.pushField_yoq_length (s : State) (n : Nat) (v : Byte) :
    (s.pushField n v).yoq.length = s.yoq.length + (s.pcnt.toNat + n) / 8 := by
  rw [State.pushField, (s.pushAll_counts _).2, pushBits_length]

/-! ### The FIFOs -/

theorem fifoFits.of_le {least len len' : Nat} {d : FifoDepth} (h : fifoFits least d len) (hle : len' ≤ len) :
    fifoFits least d len' :=
  fun cap hcap => hle.trans (h cap hcap)

/-- R27: room is that the FIFO fits with the new elements in it. -/
theorem fifoHasRoom_iff_fits {least len need : Nat} {d : FifoDepth} :
    fifoHasRoom least d len need = true ↔ fifoFits least d (len + need) :=
  fifoHasRoom_iff least d len need

/-- R27, R57: an accepted PUSH of at most 8 bits leaves YOQ no longer than its depth. -/
theorem State.pushField_yoq_fits {c : Depths} {s : State} {n : Nat} (v : Byte) (hn : n ≤ 8)
    (hready : s.pushReady c n = true) (hfits : fifoFits leastPackDepth c.pack s.yoq.length) :
    fifoFits leastPackDepth c.pack (s.pushField n v).yoq.length := by
  have hcnt := s.pcnt.isLt
  by_cases hfull : 8 ≤ s.pcnt.toNat + n
  · have hroom : s.byteRoom c 1 = true := (s.pushReady_iff c n).1 hready hfull
    refine (fifoHasRoom_iff_fits.1 hroom).of_le ?_
    rw [State.pushField_yoq_length]
    omega
  · refine hfits.of_le ?_
    rw [State.pushField_yoq_length]
    omega

/-- R27, R58: so does an accepted FLUSH. -/
theorem State.flushGroup_yoq_fits {c : Depths} {s : State} (hready : s.flushReady c = true)
    (hfits : fifoFits leastPackDepth c.pack s.yoq.length) :
    fifoFits leastPackDepth c.pack s.flushGroup.yoq.length := by
  obtain ⟨-, heq⟩ | ⟨hne, heq⟩ := s.flushGroup_cases
  · rwa [heq]
  · have hroom : s.byteRoom c 1 = true := (s.flushReady_iff c).1 hready hne
    simpa [heq] using fifoHasRoom_iff_fits.1 hroom

theorem State.flushGroup_pacc_lt {s : State} (h : s.pacc.toNat < 2 ^ s.pcnt.toNat) :
    s.flushGroup.pacc.toNat < 2 ^ s.flushGroup.pcnt.toNat := by
  obtain ⟨-, heq⟩ | ⟨-, heq⟩ := s.flushGroup_cases
  · rwa [heq]
  · simp [heq]

/-- R27, R51: an accepted SER leaves BOQ no longer than its depth. -/
theorem State.serialize_boq_fits {c : Depths} {s : State} (d : Byte) (hready : s.serReady c = true) :
    fifoFits leastSerDepth c.ser (s.serialize d).boq.length := by
  simpa [bits8] using fifoHasRoom_iff_fits.1 hready

/-! ### Effects keep the invariant -/

theorem State.effectOf_keeps_inv {s : State} {i : Instr} (hpush : ∀ n v, i = .push n v → n ≤ 8)
    (hready : s.readyFor Config.depths i = true) (hinv : s.Inv) : (s.effectOf i).Inv := by
  obtain ⟨hacc, hcause, hboq, hyoq⟩ := hinv
  cases i with
  | nop => exact ⟨hacc, hcause, hboq, hyoq⟩
  | ser d =>
    refine ⟨?_, ?_, s.serialize_boq_fits d hready, ?_⟩
    all_goals simpa [State.effectOf]
  | push n v =>
    refine ⟨State.pushAll_pacc_lt _ hacc, ?_, ?_, State.pushField_yoq_fits v (hpush n v rfl) hready hyoq⟩
    all_goals simpa [State.effectOf]
  | flush =>
    refine ⟨State.flushGroup_pacc_lt hacc, ?_, ?_, State.flushGroup_yoq_fits hready hyoq⟩
    all_goals simpa [State.effectOf]
  | clear => exact ⟨by simp [State.effectOf], by simp [State.effectOf], hboq, hyoq⟩

theorem State.raiseCmdError_keeps_inv {s : State} (c : Cause) (hinv : s.Inv) : (s.raiseCmdError c).Inv := by
  obtain ⟨-, heq⟩ | ⟨-, heq⟩ := s.raiseCmdError_cases c <;> rw [heq]
  · obtain ⟨hacc, -, hboq, hyoq⟩ := hinv
    exact ⟨hacc, (causeCode_legal c).2, hboq, hyoq⟩
  · exact hinv

/-- R26: the effect of an accepted word keeps the invariant. -/
theorem State.effectOfDecoded_keeps_inv {s : State} {w : CmdWord} (hacc : s.accepts Config.depths w = true)
    (hinv : s.Inv) : (s.effectOfDecoded (decode w)).Inv := by
  rw [State.accepts] at hacc
  cases hdec : decode w with
  | cmd i =>
    rw [hdec] at hacc
    exact State.effectOf_keeps_inv (fun n v hi => count_le_eight_of_decode_eq_push (hi ▸ hdec)) hacc hinv
  | error c => exact State.raiseCmdError_keeps_inv c hinv

theorem State.takeBit_keeps_inv {s : State} (hinv : s.Inv) : s.takeBit.Inv := by
  obtain ⟨-, heq⟩ | ⟨b, rest, hq, heq⟩ := s.takeBit_cases <;> rw [heq]
  · exact hinv
  · obtain ⟨hacc, hcause, hboq, hyoq⟩ := hinv
    exact ⟨hacc, hcause, hboq.of_le (by simp [hq]), hyoq⟩

theorem State.takeByte_keeps_inv {s : State} (hinv : s.Inv) : s.takeByte.Inv := by
  obtain ⟨-, heq⟩ | ⟨v, rest, hq, heq⟩ := s.takeByte_cases <;> rw [heq]
  · exact hinv
  · obtain ⟨hacc, hcause, hboq, hyoq⟩ := hinv
    exact ⟨hacc, hcause, hboq, hyoq.of_le (by simp [hq])⟩

/-- R26, R30: the invariant holds of the block's reset values, whatever the host's fields hold. -/
theorem State.resetBlock_inv (s : State) : s.resetBlock.Inv :=
  ⟨by simp, by simp, fun _ _ => Nat.zero_le _, fun _ _ => Nat.zero_le _⟩

/-- Settles O38: the reset state is what Reset makes of itself. -/
theorem invariantHoldsAtReset : Obligations.InvariantHoldsAtReset := State.reset.resetBlock_inv

/-- Settles O39: the invariant speaks of the block alone, so using a turn, dropping a word and answering a read keep it;
the other events have their lemmas. -/
theorem everyStepKeepsTheInvariant : Obligations.EveryStepKeepsTheInvariant := by
  intro s t hinv h
  have hturn : s.dropTurn.Inv := hinv
  obtain ⟨-, -, rfl⟩ | ⟨w, -, -, hacc, rfl⟩ | ⟨w, -, -, -, rfl⟩ | ⟨-, rfl⟩ | ⟨-, rfl⟩ | ⟨-, rfl⟩ | ⟨-, rfl⟩ |
    ⟨-, rfl⟩ := step_cases h
  · exact hturn
  · exact State.effectOfDecoded_keeps_inv (s := s.dropTurn) hacc hturn
  · exact hturn
  · exact State.takeBit_keeps_inv hturn
  · exact State.takeByte_keeps_inv hturn
  · exact hturn
  · exact State.resetBlock_inv _
  · exact hturn

end Sys2Proof.Machine
end

section
/-!
Words as numbers (spec/30_encoding.md R40 to R42): the fields that the decoder reads from a word, and the words that the
encoder writes. With them `Decode` is a case table by the value of the word (R43), and it inverts the encoder.
-/
namespace Sys2Proof

/-! ### The fields of a word -/

theorem eq_zero_iff_toNat {n : Nat} (x : BitVec n) : x = 0 ↔ x.toNat = 0 := by
  simp [← BitVec.toNat_inj]

theorem opField_toNat (w : CmdWord) : (opField w).toNat = w.toNat / 4096 := by
  simp [opField, Nat.shiftRight_eq_div_pow]
  omega

theorem lowField_toNat (w : CmdWord) : (lowField w).toNat = w.toNat % 4096 := by
  simp [lowField]

theorem nField_toNat (w : CmdWord) : (nField w).toNat = w.toNat / 256 % 16 := by
  simp [nField, Nat.shiftRight_eq_div_pow]

theorem dField_toNat (w : CmdWord) : (dField w).toNat = w.toNat % 256 := by
  simp [dField]

theorem dField_eq_ofNat (w : CmdWord) : dField w = BitVec.ofNat 8 (w.toNat % 256) := by
  rw [← dField_toNat, BitVec.ofNat_toNat, BitVec.setWidth_eq]

theorem pushReservedBit_iff (w : CmdWord) : pushReservedBit w = true ↔ w.toNat / 2048 % 2 = 1 := by
  simp [pushReservedBit, BitVec.getLsbD, Nat.testBit_eq_decide_div_mod_eq]

theorem pushCount_eq (w : CmdWord) : pushCount w = w.toNat / 256 % 8 + 1 := by
  simp [pushCount, Nat.shiftRight_eq_div_pow]

/-- R41: `D[7:n]` is not 0 exactly when D is no `n`-bit value. -/
theorem pushHighBits_ne_zero_iff (n : Nat) (w : CmdWord) : pushHighBits n w ≠ 0 ↔ 2 ^ n ≤ w.toNat % 256 := by
  have hvalue : (pushHighBits n w).toNat = w.toNat % 256 / 2 ^ n := by
    simp [pushHighBits, dField_toNat, Nat.shiftRight_eq_div_pow]
  rw [ne_eq, eq_zero_iff_toNat, hvalue, Nat.div_eq_zero_iff_lt (Nat.two_pow_pos n), Nat.not_lt]

/-- R41: an `n`-bit D is the operand of its PUSH. -/
theorem pushBitsField_of_lt {n : Nat} {w : CmdWord} (h : w.toNat % 256 < 2 ^ n) :
    pushBitsField n w = BitVec.ofNat 8 (w.toNat % 256) := by
  rw [pushBitsField, dField_toNat, Nat.mod_eq_of_lt h]

/-! ### The arms of the decoder -/

theorem decodeBare_eq (i : Instr) (w : CmdWord) :
    decodeBare i w = if w.toNat % 4096 = 0 then .cmd i else .error .reservedNonzero := by
  have hlow : lowField w = 0 ↔ w.toNat % 4096 = 0 := by
    rw [eq_zero_iff_toNat, lowField_toNat]
  exact if_congr hlow rfl rfl

theorem decodeSer_eq (w : CmdWord) :
    decodeSer w =
      if w.toNat / 256 % 16 = 0 then .cmd (.ser (BitVec.ofNat 8 (w.toNat % 256))) else .error .reservedNonzero := by
  have hn : nField w = 0 ↔ w.toNat / 256 % 16 = 0 := by
    rw [eq_zero_iff_toNat, nField_toNat]
  rw [← dField_eq_ofNat]
  exact if_congr hn rfl rfl

theorem decodePush_eq (w : CmdWord) :
    decodePush w =
      if w.toNat / 2048 % 2 = 1 ∨ 2 ^ (w.toNat / 256 % 8 + 1) ≤ w.toNat % 256 then .error .reservedNonzero
      else .cmd (.push (w.toNat / 256 % 8 + 1) (BitVec.ofNat 8 (w.toNat % 256))) := by
  have hreserved : (pushReservedBit w || decide (pushHighBits (pushCount w) w ≠ 0)) = true ↔
      w.toNat / 2048 % 2 = 1 ∨ 2 ^ (w.toNat / 256 % 8 + 1) ≤ w.toNat % 256 := by
    rw [Bool.or_eq_true, decide_eq_true_iff, pushReservedBit_iff, pushHighBits_ne_zero_iff, pushCount_eq]
  rw [decodePush, if_congr hreserved rfl rfl, pushCount_eq]
  split
  case isTrue => rfl
  case isFalse h => rw [pushBitsField_of_lt (by omega)]

/-- Settles O3: the opcode is the word's value divided by 0x1000, and each opcode's arm asks of the rest of the value
what the table asks. -/
theorem decodeFollowsTheOpcodeTable : Obligations.DecodeFollowsTheOpcodeTable := by
  intro w
  dsimp only
  unfold decode
  rw [opField_toNat]
  split
  case h_1 hop =>
    rw [if_pos (by omega), decodeBare_eq]
    exact if_congr (by omega) rfl rfl
  case h_2 hop =>
    rw [if_neg (by omega), if_pos (by omega), decodeSer_eq]
    exact if_congr (by omega) rfl rfl
  case h_3 hop =>
    rw [if_neg (by omega), if_neg (by omega), if_pos (by omega), decodePush_eq]
    exact if_congr (or_congr (by omega) Iff.rfl) rfl rfl
  case h_4 hop =>
    rw [if_neg (by omega), if_neg (by omega), if_neg (by omega), if_pos (by omega), decodeBare_eq]
    exact if_congr (by omega) rfl rfl
  case h_5 hop =>
    rw [if_neg (by omega), if_neg (by omega), if_neg (by omega), if_neg (by omega), if_pos (by omega), decodeBare_eq]
    exact if_congr (by omega) rfl rfl
  case h_6 h0 h1 h2 h3 h4 =>
    rw [imp_false] at h0 h1 h2 h3 h4
    rw [if_neg (by omega), if_neg (by omega), if_neg (by omega), if_neg (by omega), if_neg (by omega)]

/-! ### The words of the commands -/

theorem toNat_append_eq (m n : Nat) (x : BitVec m) (y : BitVec n) : (x ++ y).toNat = x.toNat * 2 ^ n + y.toNat := by
  rw [BitVec.toNat_append, ← Nat.shiftLeft_add_eq_or_of_lt y.isLt, Nat.shiftLeft_eq]

theorem encode_ser_toNat (d : Byte) : (encode (.ser d)).toNat = 0x1000 + d.toNat := by
  simp only [encode, Instr.opcode, toNat_append_eq]
  simp

theorem encode_push_toNat {n : Nat} (v : Byte) (hn : 1 ≤ n) (hn' : n ≤ 8) :
    (encode (.push n v)).toNat = 0x2000 + (n - 1) * 256 + v.toNat := by
  have hfield : (n - 1) % 8 = n - 1 := Nat.mod_eq_of_lt (by omega)
  simp only [encode, Instr.opcode, toNat_append_eq]
  simp [hfield]
  omega

theorem wellFormed_push_iff {n : Nat} {v : Byte} :
    (Instr.push n v).wellFormed = true ↔ 1 ≤ n ∧ n ≤ 8 ∧ v.toNat < 2 ^ n := by
  simp [Instr.wellFormed, and_assoc]

theorem toNat_ofNat_byte {k : Nat} (h : k < 256) : (BitVec.ofNat 8 k).toNat = k := by
  rw [BitVec.toNat_ofNat]
  exact Nat.mod_eq_of_lt h

theorem ofNat_toNat_of_eq {k : Nat} {d : Byte} (h : k = d.toNat) : BitVec.ofNat 8 k = d := by
  rw [h, BitVec.ofNat_toNat, BitVec.setWidth_eq]

/-- Settles O1: the value of a command's word selects the command's own row of the table (O3). -/
theorem decodeOfEncodeIsTheCommand : Obligations.DecodeOfEncodeIsTheCommand := by
  intro i hi
  cases i with
  | nop | flush | clear => decide
  | ser d =>
    have hword := encode_ser_toNat d
    have hd := d.isLt
    rw [decodeFollowsTheOpcodeTable]
    dsimp only
    rw [if_neg (by omega), if_pos (by omega), if_pos (by omega), ofNat_toNat_of_eq (d := d) (by omega)]
  | push n v =>
    obtain ⟨hn, hn', hv⟩ := wellFormed_push_iff.1 hi
    have hword := encode_push_toNat v hn hn'
    have hlt := v.isLt
    have hcount : (encode (.push n v)).toNat / 256 % 8 + 1 = n := by omega
    have hbits : (encode (.push n v)).toNat % 256 = v.toNat := by omega
    rw [decodeFollowsTheOpcodeTable]
    dsimp only
    rw [hcount, hbits, if_neg (by omega), if_neg (by omega), if_pos (by omega), if_neg (by omega),
      ofNat_toNat_of_eq rfl]

/-- Settles O2: in each row of the table (O3) that gives a command, the row's conditions are the command's
well-formedness and the value of its word. -/
theorem encodeOfDecodeIsTheWord : Obligations.EncodeOfDecodeIsTheWord := by
  intro w i h
  have hlt := w.isLt
  rw [decodeFollowsTheOpcodeTable] at h
  dsimp only at h
  split_ifs at h with h0 hnop h1 hser h2 hpush h3 hflush h4 hclear <;> cases h
  · exact ⟨rfl, BitVec.eq_of_toNat_eq hnop.symm⟩
  · refine ⟨rfl, BitVec.eq_of_toNat_eq ?_⟩
    rw [encode_ser_toNat, BitVec.toNat_ofNat]
    omega
  · have hv : (BitVec.ofNat 8 (w.toNat % 256)).toNat = w.toNat % 256 := toNat_ofNat_byte (by omega)
    refine ⟨wellFormed_push_iff.2 ⟨by omega, by omega, by omega⟩, BitVec.eq_of_toNat_eq ?_⟩
    rw [encode_push_toNat _ (by omega) (by omega), hv]
    omega
  · exact ⟨rfl, BitVec.eq_of_toNat_eq hflush.symm⟩
  · exact ⟨rfl, BitVec.eq_of_toNat_eq hclear.symm⟩

/-- R42: the words that decode to a command are the words of the well-formed commands. -/
theorem decode_eq_cmd_iff {w : CmdWord} {i : Instr} : decode w = .cmd i ↔ i.wellFormed = true ∧ encode i = w :=
  ⟨encodeOfDecodeIsTheWord w i, fun ⟨hi, hw⟩ => hw ▸ decodeOfEncodeIsTheCommand i hi⟩

/-- R42, R48: a word whose value is that of a well-formed command's word decodes to it. -/
theorem decode_of_toNat_eq {w : CmdWord} {i : Instr} (hi : i.wellFormed = true) (h : w.toNat = (encode i).toNat) :
    decode w = .cmd i :=
  decode_eq_cmd_iff.2 ⟨hi, (BitVec.eq_of_toNat_eq h).symm⟩

/-- Settles O4: a word decodes to a command exactly when it is the command's word (O1, O2), and the list holds the values
of those words. -/
theorem legalWordsAreThoseOfTheMap : Obligations.LegalWordsAreThoseOfTheMap := by
  intro w
  constructor
  · rintro ⟨i, hdec⟩
    obtain ⟨hi, rfl⟩ := decode_eq_cmd_iff.1 hdec
    cases i with
    | nop => exact .inl rfl
    | ser d => exact .inr (.inl ⟨d.toNat, d.isLt, encode_ser_toNat d⟩)
    | push n v =>
      obtain ⟨hn, hn', hv⟩ := wellFormed_push_iff.1 hi
      exact .inr (.inr (.inl ⟨n, v.toNat, hn, hn', hv, encode_push_toNat v hn hn'⟩))
    | flush => exact .inr (.inr (.inr (.inl rfl)))
    | clear => exact .inr (.inr (.inr (.inr rfl)))
  · rintro (hw | ⟨d, hd, hw⟩ | ⟨n, v, hn, hn', hv, hw⟩ | hw | hw)
    · exact ⟨.nop, decode_of_toNat_eq rfl hw⟩
    · have hbyte : (BitVec.ofNat 8 d).toNat = d := toNat_ofNat_byte hd
      refine ⟨.ser (BitVec.ofNat 8 d), decode_of_toNat_eq rfl ?_⟩
      rw [encode_ser_toNat, hbyte, hw]
    · have hv8 : v < 2 ^ 8 := hv.trans_le (Nat.pow_le_pow_right (by decide) hn')
      have hbyte : (BitVec.ofNat 8 v).toNat = v := toNat_ofNat_byte hv8
      refine ⟨.push n (BitVec.ofNat 8 v), decode_of_toNat_eq (wellFormed_push_iff.2 ⟨hn, hn', by rwa [hbyte]⟩) ?_⟩
      rw [encode_push_toNat _ hn hn', hbyte, hw]
    · exact ⟨.flush, decode_of_toNat_eq rfl hw⟩
    · exact ⟨.clear, decode_of_toNat_eq rfl hw⟩

/-- Settles O7: each word is written-out bits, so the decoder evaluates on it. -/
theorem sampleWordsDecodeAsTheirEncodingsSay : Obligations.SampleWordsDecodeAsTheirEncodingsSay := by
  unfold Obligations.SampleWordsDecodeAsTheirEncodingsSay
  decide

end Sys2Proof
end

section
/-!
The words that are no command (spec/30_encoding.md R44, R45): their decoding, and that the step which takes one only
records its cause (spec/60_exceptions.md R70).
-/
namespace Sys2Proof.Machine

/-- R70: recording an error writes ECAUSE and no other field. -/
theorem State.raiseCmdError_eq (s : State) (c : Cause) :
    s.raiseCmdError c = { s with ecause := if s.ecause = 0 then causeCode c else s.ecause } := by
  obtain ⟨hzero, heq⟩ | ⟨hne, heq⟩ := s.raiseCmdError_cases c
  · rw [heq, if_pos hzero]; rfl
  · rw [heq, if_neg hne]

/-- R44, R45, R70: the step that takes an error word. -/
theorem step_of_decode_error {s : State} {w : CmdWord} {c : Cause} (hdec : decode w = .error c)
    (hturn : s.nextTurn = .cmd) (hw : s.presented = some w) :
    step s = .next { s with ecause := if s.ecause = 0 then causeCode c else s.ecause,
                            cmds := s.cmds.tail, turns := s.turns.tail } := by
  rw [step_eq_execDecoded hturn hw, hdec, execDecoded, execError, issue_true, State.raiseCmdError_eq]
  rfl

/-- Settles O5: the last row of the table (O3), and the step of an error word. -/
theorem illegalOpcodesOnlyRecordTheError : Obligations.IllegalOpcodesOnlyRecordTheError := by
  intro w h
  have hdec : decode w = .error .illegalOp := by
    rw [decodeFollowsTheOpcodeTable]
    dsimp only
    rw [if_neg (by omega), if_neg (by omega), if_neg (by omega), if_neg (by omega), if_neg (by omega)]
  exact ⟨hdec, fun s hturn hw => step_of_decode_error hdec hturn hw⟩

/-- R44: the reserved words as ranges of their value. -/
theorem reservedWord_iff (w : CmdWord) :
    reservedWord w = true ↔
      ((w.toNat / 4096 = 0 ∨ w.toNat / 4096 = 3 ∨ w.toNat / 4096 = 4) ∧ w.toNat % 4096 ≠ 0) ∨
      (w.toNat / 4096 = 1 ∧ w.toNat / 256 % 16 ≠ 0) ∨
      (w.toNat / 4096 = 2 ∧
        (w.toNat / 2048 % 2 = 1 ∨ 2 ^ (w.toNat / 256 % 8 + 1) ≤ w.toNat % 256)) := by
  have hpos := Nat.two_pow_pos (w.toNat / 256 % 8 + 1)
  simp only [reservedWord, Bool.or_eq_true, Bool.and_eq_true, beq_iff_eq, bne_iff_ne, ne_eq,
    Nat.div_eq_zero_iff_lt hpos, Nat.not_lt, or_assoc]

/-- R43, R44: a reserved word decodes to its error. -/
theorem decode_of_reservedWord {w : CmdWord} (h : reservedWord w = true) : decode w = .error .reservedNonzero := by
  rw [decodeFollowsTheOpcodeTable]
  dsimp only
  obtain ⟨hop | hop | hop, hlow⟩ | ⟨hop, hn⟩ | ⟨hop, hbits⟩ := (reservedWord_iff w).1 h
  · rw [if_pos (by omega), if_neg (by omega)]
  · rw [if_neg (by omega), if_neg (by omega), if_neg (by omega), if_pos (by omega), if_neg (by omega)]
  · rw [if_neg (by omega), if_neg (by omega), if_neg (by omega), if_neg (by omega), if_pos (by omega),
      if_neg (by omega)]
  · rw [if_neg (by omega), if_pos (by omega), if_neg (by omega)]
  · rw [if_neg (by omega), if_neg (by omega), if_pos (by omega), if_pos (by omega)]

/-- Settles O6: a reserved word's decoding, and the step of an error word. -/
theorem reservedEncodingsOnlyRecordTheError : Obligations.ReservedEncodingsOnlyRecordTheError := fun _ h =>
  ⟨decode_of_reservedWord h, fun _ hturn hw => step_of_decode_error (decode_of_reservedWord h) hturn hw⟩

end Sys2Proof.Machine
end

section
/-!
The assembler on source lines (spec/30_encoding.md R48): the word of a line in range is the encoding of its command. The
pseudo-instructions (R49) are lists of such lines; PUSH of a bit string is the one to look at, since PACK is that PUSH
for each of the groups that its operand is cut into.
-/
namespace Sys2Proof.Machine

/-! ### The lines of the commands -/

/-- R48: SER takes a byte. -/
theorem asmSer_eq (d : Nat) : asmSer d = if d < 256 then some (encode (.ser (BitVec.ofNat 8 d))) else none := by
  by_cases hd : d < 256
  · have hword : BitVec.ofNat 16 (0x1000 + d) = encode (.ser (BitVec.ofNat 8 d)) := by
      apply BitVec.eq_of_toNat_eq
      rw [encode_ser_toNat, toNat_ofNat_byte hd, BitVec.toNat_ofNat]
      omega
    have hrange : d ≤ 255 := by omega
    simp [asmSer, checkedWord, hd, hrange, hword]
  · have hrange : ¬ d ≤ 255 := by omega
    simp [asmSer, checkedWord, hd, hrange]

theorem lt_byte_of_lt_two_pow {n v : Nat} (hn : n ≤ 8) (hv : v < 2 ^ n) : v < 256 :=
  hv.trans_le (Nat.pow_le_pow_right (by decide) hn)

/-- R48: PUSH takes a count from 1 to 8 and a value of that many bits. -/
theorem asmPush_eq (n v : Nat) :
    asmPush n v =
      if 1 ≤ n ∧ n ≤ 8 ∧ v < 2 ^ n then some (encode (.push n (BitVec.ofNat 8 v))) else none := by
  have hchecks : (decide (1 ≤ n) && decide (n ≤ 8) && decide (v < 2 ^ n)) = true ↔ 1 ≤ n ∧ n ≤ 8 ∧ v < 2 ^ n := by
    simp [and_assoc]
  rw [asmPush, checkedWord, if_congr hchecks rfl rfl]
  split
  case isTrue h =>
    obtain ⟨hn, hn', hv⟩ := h
    have hbyte := lt_byte_of_lt_two_pow hn' hv
    have hword : BitVec.ofNat 16 (0x2000 + (n - 1) * 256 + v) = encode (.push n (BitVec.ofNat 8 v)) := by
      apply BitVec.eq_of_toNat_eq
      rw [encode_push_toNat _ hn hn', toNat_ofNat_byte hbyte, BitVec.toNat_ofNat]
      omega
    rw [hword]
  case isFalse => rfl

/-- R48: `.word` takes any word. -/
theorem asmRaw_toNat (w : CmdWord) : asmRaw w.toNat = some w := by
  have hrange : w.toNat ≤ 0xFFFF := Nat.le_of_lt_succ w.isLt
  simp [asmRaw, checkedWord, hrange]

@[simp] theorem collect_singleton (o : Option CmdWord) : collect [o] = o.map ([·]) := by
  cases o <;> rfl

/-- R48: a command's line assembles to its word. -/
theorem assemble_lineOf {i : Instr} (hi : i.wellFormed = true) : assemble (lineOf i) = some [encode i] := by
  cases i with
  | nop | flush | clear => rfl
  | ser d =>
    have hd : d.toNat < 256 := d.isLt
    simp [lineOf, assemble, asmSer_eq, hd]
  | push n v =>
    have hrange := wellFormed_push_iff.1 hi
    simp [lineOf, assemble, asmPush_eq, hrange]

/-- R48: the line that a word disassembles to assembles to the word. -/
theorem assemble_disassemble (w : CmdWord) : assemble (disassemble w) = some [w] := by
  unfold disassemble
  split
  case h_1 i hdec =>
    obtain ⟨hi, hw⟩ := decode_eq_cmd_iff.1 hdec
    rw [assemble_lineOf hi, hw]
  case h_2 =>
    rw [assemble, collect_singleton, asmRaw_toNat]
    rfl

/-- Settles O8. -/
theorem assemblerInvertsDisassembler : Obligations.AssemblerInvertsDisassembler :=
  ⟨fun _ => assemble_lineOf, assemble_disassemble⟩

/-! ### PUSH of a bit string -/

/-- R41: PUSH sends the low bits of its operand, so bits above them do not matter. -/
theorem pushBits_ofNat_bitsValue (s : List Bit) (high : Nat) (hs : s.length ≤ 8) :
    pushBits s.length (BitVec.ofNat 8 (2 ^ s.length * high + bitsValue s)) = s := by
  induction s generalizing high with
  | nil => rfl
  | cons b rest ih =>
    have hlen : rest.length < 8 := hs
    have hsplit : 2 ^ (rest.length + 1) * high + bitsValue (b :: rest) =
        2 ^ rest.length * (2 * high + b.toNat) + bitsValue rest := by
      rw [bitsValue, Nat.pow_succ]
      ring
    have hbit : (BitVec.ofNat 8 (2 ^ rest.length * (2 * high + b.toNat) + bitsValue rest)).getLsbD rest.length = b := by
      rw [BitVec.getLsbD_ofNat, Nat.testBit_two_pow_mul_add _ (bitsValue_lt_two_pow rest)]
      cases b <;> simp [hlen]
    rw [List.length_cons, pushBits, hsplit, hbit, ih _ hlen.le]

/-- The PUSH of a bit string (R49, PBITS): its count and its operand. -/
def bitsPush (s : List Bit) : Nat × Byte := (s.length, BitVec.ofNat 8 (bitsValue s))

/-- R49: it pushes the bits of the string. -/
theorem pushBits_bitsPush {s : List Bit} (hs : s.length ≤ 8) : pushBits (bitsPush s).1 (bitsPush s).2 = s := by
  simpa [bitsPush] using pushBits_ofNat_bitsValue s 0 hs

theorem bitsPush_wellFormed {s : List Bit} (hs : 1 ≤ s.length) (hs' : s.length ≤ 8) :
    (Instr.push (bitsPush s).1 (bitsPush s).2).wellFormed = true := by
  have hvalue := bitsValue_lt_two_pow s
  refine wellFormed_push_iff.2 ⟨hs, hs', ?_⟩
  rwa [bitsPush, toNat_ofNat_byte (lt_byte_of_lt_two_pow hs' hvalue)]

/-- R49: only the string's length can be out of range. -/
theorem asmPush_bitsValue (s : List Bit) :
    asmPush s.length (bitsValue s) =
      if 1 ≤ s.length ∧ s.length ≤ 8 then some (encode (.push (bitsPush s).1 (bitsPush s).2)) else none := by
  rw [asmPush_eq]
  exact if_congr (by simp [bitsValue_lt_two_pow s]) rfl rfl

/-! ### PACK -/

/-- R49: how PACK cuts its operand, into the complete groups and the remaining bits if there are any. -/
def packGroups (s : List Bit) : List (List Bit) :=
  (List.range (s.length / 8)).map (groupAt s)
    ++ if s.length % 8 ≠ 0 then [s.drop (s.length - s.length % 8)] else []

theorem groupAt_length {s : List Bit} {j : Nat} (h : j < s.length / 8) : (groupAt s j).length = 8 := by
  simp only [groupAt, List.length_take, List.length_drop]
  omega

theorem remainder_length (s : List Bit) : (s.drop (s.length - s.length % 8)).length = s.length % 8 := by
  rw [List.length_drop]
  omega

/-- The first `k` groups are the first `8 * k` bits. -/
theorem flatten_groupAt (s : List Bit) (k : Nat) : ((List.range k).map (groupAt s)).flatten = s.take (8 * k) := by
  induction k with
  | zero => rfl
  | succ k ih =>
    rw [List.range_succ, List.map_append, List.flatten_append, ih, Nat.mul_succ, List.take_add]
    simp [groupAt]

theorem packGroups_flatten (s : List Bit) : (packGroups s).flatten = s := by
  have hcut : 8 * (s.length / 8) = s.length - s.length % 8 := by omega
  rw [packGroups, List.flatten_append, flatten_groupAt, hcut]
  split
  case isTrue => simp
  case isFalse h => simp [not_not.1 h]

theorem packGroups_length {s g : List Bit} (h : g ∈ packGroups s) : 1 ≤ g.length ∧ g.length ≤ 8 := by
  rw [packGroups, List.mem_append] at h
  obtain hgroup | hrest := h
  · obtain ⟨j, hj, rfl⟩ := List.mem_map.1 hgroup
    have hlen := groupAt_length (List.mem_range.1 hj)
    omega
  · split at hrest
    case isTrue hne =>
      have hlen := remainder_length s
      rw [← List.mem_singleton.1 hrest] at hlen
      omega
    case isFalse => cases hrest

/-- R49: the commands of PACK's groups. -/
def packPushes (s : List Bit) : List (Nat × Byte) := (packGroups s).map bitsPush

theorem packPushes_wellFormed {s : List Bit} {p : Nat × Byte} (h : p ∈ packPushes s) :
    (Instr.push p.1 p.2).wellFormed = true := by
  obtain ⟨g, hg, rfl⟩ := List.mem_map.1 h
  obtain ⟨hpos, hle⟩ := packGroups_length hg
  exact bitsPush_wellFormed hpos hle

/-- R49: PACK's commands push its operand. -/
theorem packPushes_bits (s : List Bit) : (packPushes s).flatMap (fun p => pushBits p.1 p.2) = s := by
  have hgroup : ∀ g ∈ packGroups s, pushBits (bitsPush g).1 (bitsPush g).2 = g := fun g hg =>
    pushBits_bitsPush (packGroups_length hg).2
  calc (packPushes s).flatMap (fun p => pushBits p.1 p.2)
      = ((packGroups s).map fun g => pushBits (bitsPush g).1 (bitsPush g).2).flatten := by
        rw [packPushes, List.flatMap, List.map_map]; rfl
    _ = (packGroups s).flatten := by rw [List.map_congr_left hgroup, List.map_id']
    _ = s := packGroups_flatten s

/-- R49: the commands of PACK, written out as the rule has them. -/
theorem packPushes_eq (s : List Bit) :
    packPushes s =
      (List.range (s.length / 8)).map (fun j => (8, BitVec.ofNat 8 (bitsValue (groupAt s j))))
        ++ if s.length % 8 ≠ 0 then
            [(s.length % 8, BitVec.ofNat 8 (bitsValue (s.drop (s.length - s.length % 8))))]
          else [] := by
  rw [packPushes, packGroups, List.map_append, List.map_map]
  congr 1
  · refine List.map_congr_left fun j hj => ?_
    rw [Function.comp_apply, bitsPush, groupAt_length (List.mem_range.1 hj)]
  · split
    case isTrue => rw [List.map_singleton, bitsPush, remainder_length]
    case isFalse => rfl

/-- R49: PACK assembles each of its groups as PBITS would, and then FLUSH. -/
theorem packWords_eq_groups (s : List Bit) :
    packWords s = (packGroups s).map (fun g => asmPush g.length (bitsValue g)) ++ [some (encode .flush)] := by
  rw [packWords, packGroups, List.map_append, List.map_map]
  congr 2
  · refine List.map_congr_left fun j hj => ?_
    rw [Function.comp_apply, groupAt_length (List.mem_range.1 hj)]
  · split
    case isTrue => rw [List.map_singleton, remainder_length]
    case isFalse => rfl

theorem assemble_pack (s : List Bit) :
    assemble (.pack s) = some ((packPushes s).map (fun p => encode (.push p.1 p.2)) ++ [encode .flush]) := by
  have hgroup : ∀ g ∈ packGroups s,
      asmPush g.length (bitsValue g) = some (encode (.push (bitsPush g).1 (bitsPush g).2)) := fun g hg => by
    rw [asmPush_bitsValue, if_pos (packGroups_length hg)]
  have hwords : packWords s =
      ((packPushes s).map (fun p => encode (.push p.1 p.2)) ++ [encode .flush]).map some := by
    rw [packWords_eq_groups, List.map_congr_left hgroup, packPushes]
    simp
  rw [assemble, hwords, collect_map_some]

/-! ### The pseudo-instructions -/

theorem assemble_pbit (b : Nat) :
    assemble (.pbit b) = if b < 2 then some [encode (.push 1 (BitVec.ofNat 8 b))] else none := by
  rw [assemble, collect_singleton, asmPush_eq]
  by_cases hb : b < 2 <;> simp [hb]

theorem assemble_pbyte (b : Nat) :
    assemble (.pbyte b) = if b < 256 then some [encode (.push 8 (BitVec.ofNat 8 b))] else none := by
  rw [assemble, collect_singleton, asmPush_eq]
  by_cases hb : b < 256 <;> simp [hb]

theorem assemble_pbits (s : List Bit) :
    assemble (.pbits s) =
      if 1 ≤ s.length ∧ s.length ≤ 8 then some [encode (.push s.length (BitVec.ofNat 8 (bitsValue s)))] else none := by
  rw [assemble, collect_singleton, asmPush_bitsValue]
  split <;> rfl

/-- R49: SERS refuses the line when one of its operands is no byte. -/
theorem assemble_sers (bs : List Nat) :
    assemble (.sers bs) =
      if ∀ b ∈ bs, b < 256 then some (bs.map fun b => encode (.ser (BitVec.ofNat 8 b))) else none := by
  rw [assemble]
  split
  case isTrue hall =>
    have hwords : bs.map asmSer = (bs.map fun b => encode (.ser (BitVec.ofNat 8 b))).map some := by
      rw [List.map_map]
      exact List.map_congr_left fun b hb => by rw [asmSer_eq, if_pos (hall b hb), Function.comp_apply]
    rw [hwords, collect_map_some]
  case isFalse hsome =>
    obtain ⟨b, hb, hrange⟩ : ∃ b ∈ bs, ¬ b < 256 := by simpa using hsome
    exact collect_none (List.mem_map.2 ⟨b, hb, by rw [asmSer_eq, if_neg hrange]⟩)

/-- Settles O9, clause by clause; PACK's commands are `packPushes`. -/
theorem pseudoInstructionsExpandToTheirCommands : Obligations.PseudoInstructionsExpandToTheirCommands := by
  refine ⟨assemble_pbit, assemble_pbyte, assemble_pbits, fun s => pushBits_bitsPush, assemble_sers, fun s => ?_,
    fun s => ⟨packPushes s, fun _ => packPushes_wellFormed, packPushes_bits s, assemble_pack s⟩⟩
  rw [assemble_pack, packPushes_eq, List.map_append, List.map_map]
  split <;> rfl

end Sys2Proof.Machine
end

section
/-!
The assembler on source text (spec/30_encoding.md R48). A printed line is a mnemonic and its operands, all of them made of
characters that are no blank, no comma and no semicolon. Such a line reads back as that mnemonic with those operands, and
a comment after it is not read.
-/
namespace Sys2Proof.Machine

/-! ### Blanks -/

/-- A text that neither begins nor ends with a blank. -/
structure Trimmed (t : List Char) : Prop where
  ne_nil : t ≠ []
  head : isBlank (t.head ne_nil) = false
  last : isBlank (t.getLast ne_nil) = false

theorem Trimmed.dropWhile_append {t : List Char} (h : Trimmed t) (rest : List Char) :
    (t ++ rest).dropWhile isBlank = t ++ rest := by
  obtain ⟨c, t', rfl⟩ := List.exists_cons_of_ne_nil h.ne_nil
  have hc : isBlank c = false := h.head
  simp [hc]

theorem Trimmed.rdropWhile_eq {t : List Char} (h : Trimmed t) : t.rdropWhile isBlank = t :=
  List.rdropWhile_eq_self_iff.2 fun _ => by simp [h.last]

theorem trim_eq_rdropWhile (t : List Char) : trim t = (t.dropWhile isBlank).rdropWhile isBlank := rfl

theorem Trimmed.trim_eq {t : List Char} (h : Trimmed t) : trim t = t := by
  have hdrop : t.dropWhile isBlank = t := by simpa using h.dropWhile_append []
  rw [trim_eq_rdropWhile, hdrop, h.rdropWhile_eq]

theorem trim_blank_cons (t : List Char) : trim (' ' :: t) = trim t := rfl

theorem Trimmed.trim_append_blank {t : List Char} (h : Trimmed t) : trim (t ++ [' ']) = t := by
  rw [trim_eq_rdropWhile, h.dropWhile_append, List.rdropWhile_concat_pos _ _ _ (by decide), h.rdropWhile_eq]

theorem Trimmed.append {a b : List Char} (ha : Trimmed a) (hb : Trimmed b) (mid : List Char) :
    Trimmed (a ++ mid ++ b) where
  ne_nil := by simp [ha.ne_nil]
  head := by simpa [ha.ne_nil] using ha.head
  last := by rw [List.getLast_append_of_ne_nil _ hb.ne_nil]; exact hb.last

/-! ### Printed lines -/

/-- A mnemonic or an operand: characters that the reader of source text takes as they are. -/
structure PlainText (t : List Char) : Prop where
  ne_nil : t ≠ []
  plain : ∀ c ∈ t, isBlank c = false ∧ c ≠ ';' ∧ c ≠ ','

theorem PlainText.of_all {t : List Char} (hne : t ≠ [])
    (h : t.all (fun c => !isBlank c && c != ';' && c != ',') = true) : PlainText t :=
  ⟨hne, fun c hc => by simpa [and_assoc] using List.all_eq_true.1 h c hc⟩

/-- Operands, the first and the others, with a comma and a blank between them. -/
def operandsText : List Char → List (List Char) → List Char
  | o, [] => o
  | o, p :: rest => o ++ [',', ' '] ++ operandsText p rest

/-- A line: the mnemonic, and its operands after a blank. -/
def lineText (m : List Char) : List (List Char) → List Char
  | [] => m
  | o :: rest => m ++ [' '] ++ operandsText o rest

theorem PlainText.trimmed {t : List Char} (h : PlainText t) : Trimmed t where
  ne_nil := h.ne_nil
  head := (h.plain _ (List.head_mem _)).1
  last := (h.plain _ (List.getLast_mem _)).1

theorem operandsText_trimmed {o : List Char} {rest : List (List Char)} (h : ∀ p ∈ o :: rest, PlainText p) :
    Trimmed (operandsText o rest) := by
  obtain ⟨ho, hrest⟩ := List.forall_mem_cons.1 h
  induction rest generalizing o with
  | nil => exact ho.trimmed
  | cons p rest ih => exact ho.trimmed.append (ih hrest (hrest p (by simp)) (List.forall_mem_cons.1 hrest).2) _

theorem lineText_trimmed {m : List Char} {ops : List (List Char)} (hm : PlainText m) (h : ∀ o ∈ ops, PlainText o) :
    Trimmed (lineText m ops) := by
  cases ops with
  | nil => exact hm.trimmed
  | cons o rest => exact hm.trimmed.append (operandsText_trimmed h) _

theorem operandsText_no_comment {o : List Char} {rest : List (List Char)} (h : ∀ p ∈ o :: rest, PlainText p) :
    ∀ c ∈ operandsText o rest, c ≠ ';' := by
  obtain ⟨ho, hrest⟩ := List.forall_mem_cons.1 h
  induction rest generalizing o with
  | nil => exact fun c hc => (ho.plain c hc).2.1
  | cons p rest ih =>
    have htail := ih hrest (hrest p (by simp)) (List.forall_mem_cons.1 hrest).2
    intro c hc
    rw [operandsText, List.mem_append, List.mem_append] at hc
    obtain (hc | hc) | hc := hc
    · exact (ho.plain c hc).2.1
    · obtain rfl | rfl := List.mem_pair.1 hc <;> decide
    · exact htail c hc

theorem lineText_no_comment {m : List Char} {ops : List (List Char)} (hm : PlainText m) (h : ∀ o ∈ ops, PlainText o) :
    ∀ c ∈ lineText m ops, c ≠ ';' := by
  cases ops with
  | nil => exact fun c hc => (hm.plain c hc).2.1
  | cons o rest =>
    intro c hc
    rw [lineText, List.mem_append, List.mem_append] at hc
    obtain (hc | hc) | hc := hc
    · exact (hm.plain c hc).2.1
    · obtain rfl := List.mem_singleton.1 hc
      decide
    · exact operandsText_no_comment h c hc

/-! ### Reading a printed line -/

theorem splitCommas_eq_cons (t : List Char) : ∃ part parts, splitCommas t = part :: parts := by
  cases t with
  | nil => exact ⟨_, _, rfl⟩
  | cons c t =>
    unfold splitCommas
    split
    · exact ⟨_, _, rfl⟩
    · split <;> exact ⟨_, _, rfl⟩

theorem splitCommas_comma (t : List Char) : splitCommas (',' :: t) = [] :: splitCommas t := by
  obtain ⟨part, parts, ht⟩ := splitCommas_eq_cons t
  simp [splitCommas, ht]

theorem splitCommas_cons {c : Char} {t part : List Char} {parts : List (List Char)} (hc : c ≠ ',')
    (h : splitCommas t = part :: parts) : splitCommas (c :: t) = (c :: part) :: parts := by
  simp [splitCommas, h, hc]

/-- Characters before the first comma belong to the first part. -/
theorem splitCommas_append {a t part : List Char} {parts : List (List Char)} (ha : ∀ c ∈ a, c ≠ ',')
    (h : splitCommas t = part :: parts) : splitCommas (a ++ t) = (a ++ part) :: parts := by
  induction a with
  | nil => exact h
  | cons c a ih =>
    obtain ⟨hc, ha'⟩ := List.forall_mem_cons.1 ha
    exact splitCommas_cons hc (ih ha')

/-- Blanks around an operand do not matter. -/
theorem map_trim_splitCommas_blank (t : List Char) :
    (splitCommas (' ' :: t)).map trim = (splitCommas t).map trim := by
  obtain ⟨part, parts, ht⟩ := splitCommas_eq_cons t
  rw [splitCommas_cons (by decide) ht, ht, List.map_cons, List.map_cons, trim_blank_cons]

theorem map_trim_splitCommas_operandsText {o : List Char} {rest : List (List Char)}
    (h : ∀ p ∈ o :: rest, PlainText p) : (splitCommas (operandsText o rest)).map trim = o :: rest := by
  obtain ⟨ho, hrest⟩ := List.forall_mem_cons.1 h
  have hcomma : ∀ c ∈ o, c ≠ ',' := fun c hc => (ho.plain c hc).2.2
  induction rest generalizing o with
  | nil =>
    have hsplit : splitCommas o = [o] := by simpa using splitCommas_append hcomma (t := []) rfl
    rw [operandsText, hsplit, List.map_singleton, ho.trimmed.trim_eq]
  | cons p rest ih =>
    obtain ⟨hp, hrest'⟩ := List.forall_mem_cons.1 hrest
    have hshape : operandsText o (p :: rest) = o ++ ',' :: ' ' :: operandsText p rest := by simp [operandsText]
    rw [hshape, splitCommas_append hcomma (splitCommas_comma _), List.append_nil, List.map_cons,
      map_trim_splitCommas_blank, ho.trimmed.trim_eq, ih hrest hp hrest' fun c hc => (hp.plain c hc).2.2]

theorem operandsOf_eq {cs t : List Char} (h : trim cs = t) (ht : t ≠ []) :
    operandsOf cs = (splitCommas t).map trim := by
  unfold operandsOf
  split
  case h_1 hnil => exact absurd (h.symm.trans hnil) ht
  case h_2 => rw [h]

/-- What follows the mnemonic of a line reads as its operands, and what comes before the first blank as the mnemonic. -/
theorem mnemonic_operands_of_lineText {m : List Char} {ops : List (List Char)} (hm : PlainText m)
    (h : ∀ o ∈ ops, PlainText o) :
    (lineText m ops).takeWhile (!isBlank ·) = m ∧ operandsOf ((lineText m ops).dropWhile (!isBlank ·)) = ops := by
  have hplain : ∀ c ∈ m, (!isBlank c) = true := fun c hc => by simp [(hm.plain c hc).1]
  cases ops with
  | nil =>
    have hdrop : m.dropWhile (!isBlank ·) = [] := List.dropWhile_eq_nil_iff.2 hplain
    exact ⟨List.takeWhile_eq_self_iff.2 hplain, by rw [lineText, hdrop]; rfl⟩
  | cons o rest =>
    have htext := operandsText_trimmed h
    have hshape : lineText m (o :: rest) = m ++ ' ' :: operandsText o rest := by simp [lineText]
    rw [hshape, List.takeWhile_append_of_pos hplain, List.dropWhile_append_of_pos hplain,
      List.takeWhile_cons_of_neg (by decide), List.dropWhile_cons_of_neg (by decide), List.append_nil]
    refine ⟨rfl, ?_⟩
    rw [operandsOf_eq ((trim_blank_cons _).trans htext.trim_eq) htext.ne_nil, map_trim_splitCommas_operandsText h]

/-- The text of a line before its comment, without the blanks around it: all that the assembler reads. -/
def codeOf (cs : List Char) : List Char := trim (cs.takeWhile (· ≠ ';'))

theorem codeOf_eq_self {t : List Char} (h : Trimmed t) (hno : ∀ c ∈ t, c ≠ ';') : codeOf t = t := by
  have htake : t.takeWhile (· ≠ ';') = t := List.takeWhile_eq_self_iff.2 fun c hc => by simp [hno c hc]
  rw [codeOf, htake, h.trim_eq]

/-- A blank and a comment after a text are not read. -/
theorem codeOf_comment {t : List Char} (h : Trimmed t) (hno : ∀ c ∈ t, c ≠ ';') (comment : List Char) :
    codeOf (t ++ ' ' :: ';' :: comment) = t := by
  have htake : (t ++ ' ' :: ';' :: comment).takeWhile (· ≠ ';') = t ++ [' '] := by
    rw [List.takeWhile_append_of_pos fun c hc => by simp [hno c hc]]
    simp
  rw [codeOf, htake, h.trim_append_blank]

theorem assembleText_of_codeOf {cs t : List Char} (h : codeOf cs = t) (ht : t ≠ []) :
    assembleText cs =
      (parseForm (t.takeWhile (!isBlank ·)) (operandsOf (t.dropWhile (!isBlank ·)))).bind assemble := by
  rw [codeOf] at h
  rw [assembleText, parseLine, h, if_neg ht]

/-- R48: the assembler on a text whose code is a printed line. -/
theorem assembleText_of_lineText {cs m : List Char} {ops : List (List Char)} (hm : PlainText m)
    (hops : ∀ o ∈ ops, PlainText o) (h : codeOf cs = lineText m ops) :
    assembleText cs = (parseForm m ops).bind assemble := by
  obtain ⟨hmnemonic, hoperands⟩ := mnemonic_operands_of_lineText hm hops
  rw [assembleText_of_codeOf h (lineText_trimmed hm hops).ne_nil, hmnemonic, hoperands]

/-! ### Printed numbers -/

/-- The last `k` hexadecimal digits of `v`. -/
def hexDigits (k v : Nat) : List Char := (List.range k).map fun j => hexDigit (v / 16 ^ (k - 1 - j) % 16)

theorem hexText_eq (k v : Nat) : hexText k v = '0' :: 'x' :: hexDigits k v := rfl

theorem hexDigits_succ (k v : Nat) : hexDigits (k + 1) v = hexDigit (v / 16 ^ k % 16) :: hexDigits k v := by
  rw [hexDigits, List.range_succ_eq_map, List.map_cons, List.map_map, hexDigits]
  congr 1
  refine List.map_congr_left fun j _ => ?_
  have hexponent : k + 1 - 1 - (j + 1) = k - 1 - j := by omega
  rw [Function.comp_apply, Nat.succ_eq_add_one, hexponent]

/-- Read digit by digit, the printed digits give the value back. -/
theorem digitsFrom_hexDigits (k v acc : Nat) :
    digitsFrom 16 acc (hexDigits k v) = some (acc * 16 ^ k + v % 16 ^ k) := by
  induction k generalizing acc with
  | zero => simp [hexDigits, digitsFrom, Nat.mod_one]
  | succ k ih =>
    have hdigit := digitValue_hexDigit (Nat.mod_lt (v / 16 ^ k) (by decide : 0 < 16))
    have hvalue : (acc * 16 + v / 16 ^ k % 16) * 16 ^ k + v % 16 ^ k = acc * 16 ^ (k + 1) + v % 16 ^ (k + 1) := by
      rw [Nat.pow_succ, Nat.mod_mul]
      ring
    simp only [hexDigits_succ, digitsFrom, hdigit, ih, hvalue]

theorem parseNumber_hexText {k v : Nat} (hv : v < 16 ^ (k + 1)) : parseNumber (hexText (k + 1) v) = some v := by
  have hread : parseNumber (hexText (k + 1) v) = digitsFrom 16 0 (hexDigits (k + 1) v) := by
    rw [hexText_eq, hexDigits_succ]
    rfl
  rw [hread, digitsFrom_hexDigits, Nat.zero_mul, Nat.zero_add, Nat.mod_eq_of_lt hv]

theorem parseNumber_hexDigit {n : Nat} (hn : n < 10) : parseNumber [hexDigit n] = some n := by
  interval_cases n <;> decide

theorem hexText_plain (k v : Nat) : PlainText (hexText k v) := by
  refine ⟨by simp [hexText_eq], ?_⟩
  rw [hexText_eq, List.forall_mem_cons, List.forall_mem_cons]
  refine ⟨by decide, by decide, fun c hc => ?_⟩
  obtain ⟨j, -, rfl⟩ := List.mem_map.1 hc
  exact hexDigit_plain (Nat.mod_lt _ (by decide))

theorem hexDigit_singleton_plain {n : Nat} (hn : n < 16) : PlainText [hexDigit n] :=
  ⟨by simp, by simpa using hexDigit_plain hn⟩

/-! ### The printed text of a word -/

/-- R48: what a disassembler prints for a word is a line that reads as the word's disassembly. -/
theorem disassembleText_eq_lineText (w : CmdWord) :
    ∃ m ops, PlainText m ∧ (∀ o ∈ ops, PlainText o) ∧ disassembleText w = lineText m ops ∧
      parseForm m ops = some (disassemble w) := by
  unfold disassembleText disassemble
  cases hdec : decode w with
  | error c =>
    have hnumber : parseNumber (hexText 4 w.toNat) = some w.toNat := parseNumber_hexText w.isLt
    refine ⟨['.', 'w', 'o', 'r', 'd'], [hexText 4 w.toNat], .of_all (by decide) (by decide), ?_, rfl, ?_⟩
    · simpa using hexText_plain 4 w.toNat
    · simp [parseForm, form1, parseNumbers, hnumber]
  | cmd i =>
    cases i with
    | nop => exact ⟨['N', 'O', 'P'], [], .of_all (by decide) (by decide), by simp, rfl, rfl⟩
    | flush => exact ⟨['F', 'L', 'U', 'S', 'H'], [], .of_all (by decide) (by decide), by simp, rfl, rfl⟩
    | clear => exact ⟨['C', 'L', 'E', 'A', 'R'], [], .of_all (by decide) (by decide), by simp, rfl, rfl⟩
    | ser d =>
      have hnumber : parseNumber (hexText 2 d.toNat) = some d.toNat := parseNumber_hexText d.isLt
      refine ⟨['S', 'E', 'R'], [hexText 2 d.toNat], .of_all (by decide) (by decide), ?_, rfl, ?_⟩
      · simpa using hexText_plain 2 d.toNat
      · simp [parseForm, form1, parseNumbers, hnumber, lineOf]
    | push n v =>
      have hn := count_le_eight_of_decode_eq_push hdec
      have hcount : parseNumber [hexDigit n] = some n := parseNumber_hexDigit (by omega)
      have hnumber : parseNumber (hexText 2 v.toNat) = some v.toNat := parseNumber_hexText v.isLt
      refine ⟨['P', 'U', 'S', 'H'], [[hexDigit n], hexText 2 v.toNat], .of_all (by decide) (by decide), ?_, rfl, ?_⟩
      · simpa using ⟨hexDigit_singleton_plain (n := n) (by omega), hexText_plain 2 v.toNat⟩
      · simp [parseForm, form2, parseNumbers, hcount, hnumber, lineOf]

/-- R48: a text whose code is what the disassembler prints for a word assembles to the word. -/
theorem assembleText_of_printed {cs : List Char} {w : CmdWord} (h : codeOf cs = disassembleText w) :
    assembleText cs = some [w] := by
  obtain ⟨m, ops, hm, hops, htext, hparse⟩ := disassembleText_eq_lineText w
  rw [assembleText_of_lineText hm hops (h.trans htext), hparse]
  exact assemble_disassemble w

theorem disassembleText_code (w : CmdWord) : Trimmed (disassembleText w) ∧ ∀ c ∈ disassembleText w, c ≠ ';' := by
  obtain ⟨m, ops, hm, hops, htext, -⟩ := disassembleText_eq_lineText w
  rw [htext]
  exact ⟨lineText_trimmed hm hops, lineText_no_comment hm hops⟩

/-- Settles O49: with or without a comment, the code of the text is what was printed. -/
theorem printedTextAssemblesToItsWord : Obligations.PrintedTextAssemblesToItsWord := by
  refine ⟨fun w => assembleText_of_printed ?_, fun w comment => assembleText_of_printed ?_, fun _ => rfl⟩
  · obtain ⟨htrim, hno⟩ := disassembleText_code w
    exact codeOf_eq_self htrim hno
  · obtain ⟨htrim, hno⟩ := disassembleText_code w
    exact codeOf_comment htrim hno comment

end Sys2Proof.Machine
end

section
/-!
The serializer (spec/40_serializer.md): what `bytesToBits` gives (R50), what an accepted SER does (R51), and that the
serializer and the packer share no state (R54). The last is shown field by field: overwriting what the other side owns
commutes with each command's effect and leaves its acceptance as it was.
-/
namespace Sys2Proof.Machine

/-! ### `bytesToBits` -/

@[simp] theorem bits8_length (b : Byte) : (bits8 b).length = 8 := rfl

theorem bits8_eq_map (b : Byte) : bits8 b = (List.range 8).map fun k => b.getLsbD (7 - k) := rfl

theorem bits8_getElem? (b : Byte) {k : Nat} (hk : k < 8) : (bits8 b)[k]? = some (b.getLsbD (7 - k)) := by
  simp [bits8_eq_map, hk]

@[simp] theorem bytesToBits_nil : bytesToBits [] = [] := rfl

@[simp] theorem bytesToBits_cons (b : Byte) (bs : List Byte) : bytesToBits (b :: bs) = bits8 b ++ bytesToBits bs :=
  List.flatMap_cons

theorem bytesToBits_append (xs ys : List Byte) : bytesToBits (xs ++ ys) = bytesToBits xs ++ bytesToBits ys :=
  List.flatMap_append

theorem bytesToBits_length (bs : List Byte) : (bytesToBits bs).length = 8 * bs.length := by
  induction bs with
  | nil => rfl
  | cons b bs ih => rw [bytesToBits_cons, List.length_append, bits8_length, ih, List.length_cons]; omega

/-- R50: bit `8i + k` of the string lies in the group of byte `i`. -/
theorem bytesToBits_getElem? (bs : List Byte) {i k : Nat} (hk : k < 8) :
    (bytesToBits bs)[8 * i + k]? = bs[i]?.map fun b => b.getLsbD (7 - k) := by
  induction bs generalizing i with
  | nil => simp
  | cons b bs ih =>
    rw [bytesToBits_cons]
    cases i with
    | zero => rw [List.getElem?_append_left (by simpa using hk)]; simp [bits8_getElem? b hk]
    | succ i =>
      have hrest : 8 * (i + 1) + k - (bits8 b).length = 8 * i + k := by rw [bits8_length]; omega
      rw [List.getElem?_append_right (by rw [bits8_length]; omega), hrest, ih, List.getElem?_cons_succ]

/-- Settles O40, by the length and the bits above, each by induction on the bytes. -/
theorem bytesToBitsExpandsEachByte : Obligations.BytesToBitsExpandsEachByte :=
  ⟨bytesToBits_nil, fun bs => ⟨bytesToBits_length bs, fun _ _ _ hk => bytesToBits_getElem? bs hk⟩⟩

/-! ### SER -/

/-- Settles O20: an accepted SER appends `bits8` of its byte. -/
theorem serAppendsItsByteMostSignificantFirst : Obligations.SerAppendsItsByteMostSignificantFirst := by
  intro d s hready
  have hroom : s.readyFor Config.depths (.ser d) = true := hready
  rw [exec_eq_issue, hroom, issue_true, State.effectOf, State.serialize_eq, bits8_eq_map]
  rfl

/-! ### No shared state -/

/-- R54: SER writes none of the packer's state. -/
theorem exec_ser_keeps_packer {d : Byte} {s t : State} (h : exec (.ser d) s = .next t) :
    t.pacc = s.pacc ∧ t.pcnt = s.pcnt ∧ t.yoq = s.yoq := by
  obtain ⟨-, rfl⟩ | ⟨-, rfl⟩ := exec_cases h
  · simp [State.effectOf]
  · exact ⟨rfl, rfl, rfl⟩

/-- R54: SER reads none of the packer's state, neither for its effect nor for its acceptance. -/
theorem exec_ser_of_packer {d : Byte} {s t : State} (acc : BitVec 7) (cnt : BitVec 3) (ys : List Byte)
    (h : exec (.ser d) s = .next t) :
    exec (.ser d) { s with pacc := acc, pcnt := cnt, yoq := ys } =
      .next { t with pacc := acc, pcnt := cnt, yoq := ys } := by
  have hroom : State.readyFor Config.depths { s with pacc := acc, pcnt := cnt, yoq := ys } (.ser d) =
      s.readyFor Config.depths (.ser d) := rfl
  rw [exec_eq_issue, hroom]
  obtain ⟨hready, rfl⟩ | ⟨hheld, rfl⟩ := exec_cases h
  · rw [hready, issue_true]
    simp only [State.effectOf, State.serialize_eq]
    rfl
  · rw [hheld, issue_false]

/-- Overwrite BOQ. -/
def State.withBoq (s : State) (bs : List Bit) : State := { s with boq := bs }

theorem State.withBoq_push1 (s : State) (bs : List Bit) (b : Bit) :
    (s.withBoq bs).push1 b = (s.push1 b).withBoq bs := by
  obtain ⟨h, heq⟩ | ⟨h, heq⟩ := s.push1_cases b
  · rw [heq, State.push1_full (s := s.withBoq bs) b h]; rfl
  · rw [heq, State.push1_partial (s := s.withBoq bs) b h]; rfl

theorem State.withBoq_pushAll (s : State) (bs bits : List Bit) :
    (s.withBoq bs).pushAll bits = (s.pushAll bits).withBoq bs := by
  induction bits generalizing s with
  | nil => rfl
  | cons b rest ih => rw [State.pushAll_cons, State.pushAll_cons, State.withBoq_push1, ih]

theorem State.withBoq_flushGroup (s : State) (bs : List Bit) :
    (s.withBoq bs).flushGroup = s.flushGroup.withBoq bs := by
  obtain ⟨h, heq⟩ | ⟨h, heq⟩ := s.flushGroup_cases
  · rw [heq, State.flushGroup_boundary (s := s.withBoq bs) h]
  · rw [heq, State.flushGroup_unfinished (s := s.withBoq bs) h]; rfl

/-- The packer's commands, PUSH and FLUSH. -/
def IsPackerCommand (i : Instr) : Prop := (∃ n v, i = .push n v) ∨ i = .flush

theorem State.effectOf_packer_boq (s : State) {i : Instr} (hi : IsPackerCommand i) : (s.effectOf i).boq = s.boq := by
  obtain ⟨n, v, rfl⟩ | rfl := hi
  · exact s.pushField_boq n v
  · exact s.flushGroup_boq

theorem State.withBoq_effectOf (s : State) (bs : List Bit) {i : Instr} (hi : IsPackerCommand i) :
    (s.withBoq bs).effectOf i = (s.effectOf i).withBoq bs := by
  obtain ⟨n, v, rfl⟩ | rfl := hi
  · exact s.withBoq_pushAll bs (pushBits n v)
  · exact s.withBoq_flushGroup bs

theorem State.withBoq_readyFor (c : Depths) (s : State) (bs : List Bit) {i : Instr} (hi : IsPackerCommand i) :
    (s.withBoq bs).readyFor c i = s.readyFor c i := by
  obtain ⟨n, v, rfl⟩ | rfl := hi <;> rfl

/-- R54: PUSH and FLUSH do not write BOQ. -/
theorem exec_packer_keeps_boq {i : Instr} {s t : State} (hi : IsPackerCommand i) (h : exec i s = .next t) :
    t.boq = s.boq := by
  obtain ⟨-, rfl⟩ | ⟨-, rfl⟩ := exec_cases h
  · exact s.effectOf_packer_boq hi
  · rfl

/-- R54: PUSH and FLUSH do not read BOQ, neither for their effect nor for their acceptance. -/
theorem exec_packer_withBoq {i : Instr} {s t : State} (bs : List Bit) (hi : IsPackerCommand i)
    (h : exec i s = .next t) : exec i (s.withBoq bs) = .next (t.withBoq bs) := by
  rw [exec_eq_issue, State.withBoq_readyFor _ _ _ hi]
  obtain ⟨hready, rfl⟩ | ⟨hheld, rfl⟩ := exec_cases h
  · rw [hready, issue_true, State.withBoq_effectOf _ _ hi]
    rfl
  · rw [hheld, issue_false]

/-- Settles O28: each side keeps what the other owns, and answers the same whatever that holds. -/
theorem serializerAndPackerShareNoState : Obligations.SerializerAndPackerShareNoState := by
  refine ⟨fun d s t acc cnt ys h => ?_, fun i s t bs hi h => ⟨exec_packer_keeps_boq hi h, exec_packer_withBoq bs hi h⟩⟩
  obtain ⟨hacc, hcnt, hyoq⟩ := exec_ser_keeps_packer h
  exact ⟨hacc, hcnt, hyoq, exec_ser_of_packer acc cnt ys h⟩

end Sys2Proof.Machine
end

section
/-!
Runs of the serializer (spec/40_serializer.md R52). The bits taken followed by BOQ are one stream: a step without Reset
appends to it the bits of the SER it accepts, if it accepts one, and a take only moves the stream's first unread bit to
the taken ones. The induction over the run is `run_induction`.
-/
namespace Sys2Proof.Machine

/-! ### Runs -/

theorem run_succ_eq_next {k : Nat} {s t : State} (h : run (k + 1) s = .next t) :
    ∃ u, step s = .next u ∧ run k u = .next t := by
  cases hu : step s with
  | next u => exact ⟨u, rfl, by rwa [run_succ k hu] at h⟩
  | fault r => exact nomatch r
  | refused r => simp [run, hu] at h

theorem acceptedWords_succ {s u : State} (k : Nat) (h : step s = .next u) :
    acceptedWords (k + 1) s = s.transfers.toList ++ acceptedWords k u := by
  rw [acceptedWords, h]

theorem State.effectOfDecoded_turns (s : State) (d : Decoded) : (s.effectOfDecoded d).turns = s.turns := by
  cases d with
  | error c => exact s.raiseCmdError_turns c
  | cmd i => cases i <;> simp [State.effectOfDecoded, State.effectOf]

theorem State.effectOfDecoded_answers (s : State) (d : Decoded) : (s.effectOfDecoded d).answers = s.answers := by
  cases d with
  | error c => exact s.raiseCmdError_answers c
  | cmd i => cases i <;> simp [State.effectOfDecoded, State.effectOf]

/-- R23: every step uses up one planned turn. -/
theorem step_turns {s t : State} (h : step s = .next t) : t.turns = s.turns.tail := by
  obtain ⟨-, -, rfl⟩ | ⟨w, -, -, -, rfl⟩ | ⟨w, -, -, -, rfl⟩ | ⟨-, rfl⟩ | ⟨-, rfl⟩ | ⟨-, rfl⟩ | ⟨-, rfl⟩ |
    ⟨-, rfl⟩ := step_cases h
  case inr.inl => exact State.effectOfDecoded_turns _ _
  all_goals simp

/-- A property of the command port's turn and of the first `k + 1` planned turns holds of the next turn and of the first
`k` after it. -/
theorem State.turns_take_succ {P : Turn → Prop} {s : State} {k : Nat} (hcmd : P .cmd)
    (h : ∀ u ∈ s.turns.take (k + 1), P u) : P s.nextTurn ∧ ∀ u ∈ s.turns.tail.take k, P u := by
  rw [State.nextTurn]
  cases hs : s.turns with
  | nil => simpa using hcmd
  | cons u rest => simpa [hs] using h

/-- Induction over a run whose turns have the property `P`. A relation between a state, the words accepted from it and a
later state that holds of the empty run, and of a run with one more step before it, holds of the whole run. -/
theorem run_induction {P : Turn → Prop} {R : State → List CmdWord → State → Prop} (hcmd : P .cmd)
    (hnil : ∀ s, R s [] s)
    (hstep : ∀ s u t ws, step s = .next u → P s.nextTurn → R u ws t → R s (s.transfers.toList ++ ws) t)
    {k : Nat} {s t : State} (hrun : run k s = .next t) (hturns : ∀ u ∈ s.turns.take k, P u) :
    R s (acceptedWords k s) t := by
  induction k generalizing s with
  | zero =>
    cases hrun
    exact hnil _
  | succ k ih =>
    obtain ⟨u, hu, hrest⟩ := run_succ_eq_next hrun
    obtain ⟨hfirst, hlater⟩ := State.turns_take_succ hcmd hturns
    rw [acceptedWords_succ k hu]
    exact hstep s u t _ hu hfirst (ih hrest (step_turns hu ▸ hlater))

/-! ### The words that a step transfers -/

theorem State.transfers_of_turn {s : State} (h : s.nextTurn ≠ .cmd) : s.transfers = none := if_neg h

theorem State.transfers_of_idle {s : State} (h : s.presented = none) : s.transfers = none := by
  simp [State.transfers, h]

theorem State.transfers_of_held {s : State} {w : CmdWord} (hw : s.presented = some w)
    (h : s.accepts Config.depths w = false) : s.transfers = none := by
  simp [State.transfers, hw, h]

/-! ### The bits of the accepted words -/

/-- The bits that the SER commands among some words put out, in order. -/
def serializedBits (ws : List CmdWord) : List Bit := bytesToBits (serializedBytes ws)

@[simp] theorem serializedBits_nil : serializedBits [] = [] := rfl

theorem serializedBits_append (xs ys : List CmdWord) :
    serializedBits (xs ++ ys) = serializedBits xs ++ serializedBits ys := by
  simp [serializedBits, serializedBytes, commandsOf, bytesToBits_append]

theorem serializedBits_of_cmd {w : CmdWord} {i : Instr} (h : decode w = .cmd i) :
    serializedBits [w] = bytesToBits (serializedOf i) := by
  simp [serializedBits, serializedBytes, commandsOf, commandOf, h]

theorem serializedBits_of_error {w : CmdWord} {c : Cause} (h : decode w = .error c) : serializedBits [w] = [] := by
  simp [serializedBits, serializedBytes, commandsOf, commandOf, h]

/-- R51, R54: of the accepted words only SER writes BOQ, and it appends its bits. -/
theorem State.effectOfDecoded_boq (s : State) (w : CmdWord) :
    (s.effectOfDecoded (decode w)).boq = s.boq ++ serializedBits [w] := by
  cases h : decode w with
  | error c => simp [State.effectOfDecoded, serializedBits_of_error h]
  | cmd i => cases i <;> simp [State.effectOfDecoded, State.effectOf, serializedBits_of_cmd h, serializedOf]

/-! ### The stream of output bits -/

/-- R52: the bits the host has taken, followed by what remains in BOQ. -/
def State.bitStream (s : State) : List Bit := s.bitsTaken ++ s.boq

theorem State.bitsTaken_congr {s t : State} (h : t.answers = s.answers) : t.bitsTaken = s.bitsTaken := by
  rw [State.bitsTaken, h, State.bitsTaken]

theorem State.answer_bit_bitsTaken (s : State) (b : Bit) : (s.answer (.bit b)).bitsTaken = s.bitsTaken ++ [b] := by
  simp [State.bitsTaken]

theorem State.readStatus_bitsTaken (s : State) : s.readStatus.bitsTaken = s.bitsTaken := by
  simp [State.readStatus, State.bitsTaken]

theorem State.takeByte_bitsTaken (s : State) : s.takeByte.bitsTaken = s.bitsTaken := by
  obtain ⟨-, heq⟩ | ⟨v, rest, -, heq⟩ := s.takeByte_cases <;> simp [heq, State.bitsTaken]

/-- R28: a take moves the first unread bit to the taken ones. -/
theorem State.takeBit_bitStream (s : State) : s.takeBit.bitStream = s.bitStream := by
  cases hq : s.boq with
  | nil => rw [State.takeBit_nil hq]
  | cons b rest =>
    rw [State.takeBit_cons hq, State.bitStream, State.answer_bit_bitsTaken, State.bitStream, hq,
      List.append_assoc]
    rfl

/-- A step other than Reset and TakeBit: no bit is taken, and BOQ grows by the bits of the word it transfers, if any. -/
structure AppendsBits (s t : State) : Prop where
  taken : t.bitsTaken = s.bitsTaken
  boq : t.boq = s.boq ++ serializedBits s.transfers.toList

theorem AppendsBits.of_transfers_none {s t : State} (hnone : s.transfers = none) (htaken : t.bitsTaken = s.bitsTaken)
    (hboq : t.boq = s.boq) : AppendsBits s t :=
  ⟨htaken, by simp [hnone, hboq]⟩

theorem AppendsBits.bitStream {s t : State} (h : AppendsBits s t) :
    t.bitStream = s.bitStream ++ serializedBits s.transfers.toList := by
  rw [State.bitStream, h.taken, h.boq, State.bitStream, List.append_assoc]

theorem step_appendsBits {s t : State} (h : step s = .next t) (hreset : s.nextTurn ≠ .reset)
    (htake : s.nextTurn ≠ .takeBit) : AppendsBits s t := by
  obtain ⟨-, hw, rfl⟩ | ⟨w, hturn, hw, hacc, rfl⟩ | ⟨w, -, hw, hheld, rfl⟩ | ⟨hturn, -⟩ | ⟨hturn, rfl⟩ |
    ⟨hturn, rfl⟩ | ⟨hturn, -⟩ | ⟨hturn, rfl⟩ := step_cases h
  · exact .of_transfers_none (State.transfers_of_idle hw) rfl rfl
  · refine ⟨State.bitsTaken_congr (State.effectOfDecoded_answers _ _), ?_⟩
    rw [State.transfers_of_accepts hturn hw hacc]
    exact State.effectOfDecoded_boq s.dropTurn w
  · exact .of_transfers_none (State.transfers_of_held hw hheld) rfl rfl
  · exact absurd hturn htake
  · exact .of_transfers_none (State.transfers_of_turn (by simp [hturn])) (State.takeByte_bitsTaken _) (by simp)
  · exact .of_transfers_none (State.transfers_of_turn (by simp [hturn])) (State.readStatus_bitsTaken _) (by simp)
  · exact absurd hturn hreset
  · exact .of_transfers_none (State.transfers_of_turn (by simp [hturn])) rfl rfl

/-- R52 for one step: the stream grows by the bits of the word it transfers, if any. -/
theorem step_bitStream {s t : State} (h : step s = .next t) (hreset : s.nextTurn ≠ .reset) :
    t.bitStream = s.bitStream ++ serializedBits s.transfers.toList := by
  by_cases htake : s.nextTurn = .takeBit
  · have ht : step s = .next s.dropTurn.takeBit := step_eq_runTurn htake
    cases h.symm.trans ht
    rw [State.takeBit_bitStream, State.transfers_of_turn (by simp [htake])]
    exact (List.append_nil _).symm
  · exact (step_appendsBits h hreset htake).bitStream

/-! ### Runs of SER -/

/-- R52, with takes interleaved. -/
theorem run_bitStream {k : Nat} {s t : State} (hrun : run k s = .next t) (hreset : ∀ u ∈ s.turns.take k, u ≠ .reset) :
    t.bitStream = s.bitStream ++ serializedBits (acceptedWords k s) := by
  refine run_induction (P := (· ≠ .reset)) (R := fun s ws t => t.bitStream = s.bitStream ++ serializedBits ws)
    (by decide) (fun s => by simp) (fun s u t ws hu hturn ih => ?_) hrun hreset
  rw [ih, step_bitStream hu hturn, serializedBits_append, List.append_assoc]

/-- R52, without takes. -/
theorem run_boq {k : Nat} {s t : State} (hrun : run k s = .next t)
    (hturns : ∀ u ∈ s.turns.take k, u ≠ .reset ∧ u ≠ .takeBit) :
    t.boq = s.boq ++ serializedBits (acceptedWords k s) := by
  refine run_induction (P := fun u => u ≠ .reset ∧ u ≠ .takeBit)
    (R := fun s ws t => t.boq = s.boq ++ serializedBits ws)
    (by decide) (fun s => by simp) (fun s u t ws hu hturn ih => ?_) hrun hturns
  obtain ⟨hreset, htake⟩ := hturn
  rw [ih, (step_appendsBits hu hreset htake).boq, serializedBits_append, List.append_assoc]

/-- Settles O46: the stream of output bits and BOQ, each by induction over the run. -/
theorem serRunsRealizeBytesToBits : Obligations.SerRunsRealizeBytesToBits := fun _ _ _ hrun hreset =>
  ⟨run_bitStream hrun hreset, fun htake => run_boq hrun fun u hu => ⟨hreset u hu, htake u hu⟩⟩

end Sys2Proof.Machine
end

section
/-!
The packer's arithmetic (spec/41_packer.md R56 to R58). A bit string enters the accumulator as its value: as long as it
completes no group it is kept, and the bits that complete the group emit it. PUSH is the string of its field, FLUSH the
string of the zero bits that are missing.
-/
namespace Sys2Proof.Machine

/-! ### The value of a bit string -/

/-- R49: the value of a concatenation. -/
theorem bitsValue_append (xs ys : List Bit) : bitsValue (xs ++ ys) = bitsValue xs * 2 ^ ys.length + bitsValue ys := by
  induction xs with
  | nil => simp [bitsValue]
  | cons b rest ih =>
    rw [List.cons_append, bitsValue, ih, bitsValue, List.length_append, Nat.pow_add]
    ring

theorem bitsValue_singleton (b : Bit) : bitsValue [b] = b.toNat := by simp [bitsValue]

@[simp] theorem zeros_length (k : Nat) : (zeros k).length = k := List.length_replicate

@[simp] theorem bitsValue_zeros (k : Nat) : bitsValue (zeros k) = 0 := by
  induction k with
  | zero => rfl
  | succ k ih =>
    have hcons : zeros (k + 1) = false :: zeros k := rfl
    rw [hcons, bitsValue, ih]
    simp

/-- R41: PUSH sends the low bits of its operand as they are numbered. -/
theorem bitsValue_pushBits (n : Nat) (v : Byte) : bitsValue (pushBits n v) = v.toNat % 2 ^ n := by
  induction n with
  | zero => simp [pushBits, bitsValue, Nat.mod_one]
  | succ n ih =>
    rw [pushBits, bitsValue, ih, pushBits_length, Nat.mod_pow_succ, BitVec.getLsbD, Nat.toNat_testBit, Nat.add_comm,
      Nat.mul_comm]

theorem bitsValue_pushBits_of_lt {n : Nat} {v : Byte} (h : v.toNat < 2 ^ n) : bitsValue (pushBits n v) = v.toNat := by
  rw [bitsValue_pushBits, Nat.mod_eq_of_lt h]

theorem pushBits_eq_map (n : Nat) (v : Byte) : pushBits n v = (List.range n).map fun k => v.getLsbD (n - 1 - k) := by
  induction n with
  | zero => rfl
  | succ n ih =>
    rw [pushBits, ih, List.range_succ_eq_map, List.map_cons, List.map_map]
    congr 1
    refine List.map_congr_left fun k _ => ?_
    have hk : n + 1 - 1 - (k + 1) = n - 1 - k := by omega
    rw [Function.comp_apply, Nat.succ_eq_add_one, hk]

/-- R41, R66: the bits of two operands are the bits of the operand put together from them. -/
theorem pushBits_append {n1 n2 : Nat} {v1 v2 : Byte} (hn : n1 + n2 ≤ 8) (hv1 : v1.toNat < 2 ^ n1)
    (hv2 : v2.toNat < 2 ^ n2) :
    pushBits n1 v1 ++ pushBits n2 v2 = pushBits (n1 + n2) (BitVec.ofNat 8 (v1.toNat * 2 ^ n2 + v2.toNat)) := by
  have hlen : (pushBits n1 v1 ++ pushBits n2 v2).length = n1 + n2 := by simp
  have hvalue : bitsValue (pushBits n1 v1 ++ pushBits n2 v2) = v1.toNat * 2 ^ n2 + v2.toNat := by
    rw [bitsValue_append, bitsValue_pushBits_of_lt hv1, bitsValue_pushBits_of_lt hv2, pushBits_length]
  calc pushBits n1 v1 ++ pushBits n2 v2
      = pushBits (bitsPush (pushBits n1 v1 ++ pushBits n2 v2)).1 (bitsPush (pushBits n1 v1 ++ pushBits n2 v2)).2 :=
        (pushBits_bitsPush (hlen ▸ hn)).symm
    _ = pushBits (n1 + n2) (BitVec.ofNat 8 (v1.toNat * 2 ^ n2 + v2.toNat)) := by rw [bitsPush, hlen, hvalue]

/-! ### `Push1` on bit strings -/

theorem State.shiftedIn_eq (s : State) (b : Bit) : s.shiftedIn b = BitVec.ofNat 8 (s.pacc.toNat * 2 + b.toNat) := by
  rw [← ofNat_toNat_of_eq (s.shiftedIn_toNat b).symm, Nat.mul_comm]

/-- R56: `Push1` as arithmetic on the register's value. -/
theorem State.push1_eq (s : State) (b : Bit) :
    s.push1 b =
      if s.pcnt.toNat + 1 = 8 then
        (s.byteOut (BitVec.ofNat 8 (s.pacc.toNat * 2 + b.toNat))).withPacker 0 0
      else s.withPacker (BitVec.ofNat 7 (s.pacc.toNat * 2 + b.toNat)) (BitVec.ofNat 3 (s.pcnt.toNat + 1)) := by
  rw [State.push1, State.shiftedIn_eq, BitVec.setWidth_ofNat_of_le (by decide)]

/-- What the 7 bits of PACC cannot hold has no influence on the bits of the group. -/
theorem ofNat_mod_mul_add (w x y z : Nat) : BitVec.ofNat w (x % 2 ^ w * y + z) = BitVec.ofNat w (x * y + z) := by
  apply BitVec.eq_of_toNat_eq
  rw [BitVec.toNat_ofNat, BitVec.toNat_ofNat, Nat.add_mod, Nat.mod_mul_mod, ← Nat.add_mod]

/-- R56: bits that complete no group are kept. -/
theorem State.pushAll_of_lt {s : State} {bits : List Bit} (h : s.pcnt.toNat + bits.length < 8) :
    s.pushAll bits =
      s.withPacker (BitVec.ofNat 7 (s.pacc.toNat * 2 ^ bits.length + bitsValue bits))
        (BitVec.ofNat 3 (s.pcnt.toNat + bits.length)) := by
  induction bits generalizing s with
  | nil => simp [bitsValue, State.withPacker]
  | cons b rest ih =>
    rw [List.length_cons] at h
    have hstep : s.push1 b =
        s.withPacker (BitVec.ofNat 7 (s.pacc.toNat * 2 + b.toNat)) (BitVec.ofNat 3 (s.pcnt.toNat + 1)) := by
      rw [State.push1_eq, if_neg (by omega)]
    have hcnt : (s.push1 b).pcnt.toNat = s.pcnt.toNat + 1 := by
      rw [hstep, State.withPacker_pcnt, BitVec.toNat_ofNat, Nat.mod_eq_of_lt (by omega)]
    have hacc : (s.push1 b).pacc.toNat = (s.pacc.toNat * 2 + b.toNat) % 2 ^ 7 := by
      rw [hstep, State.withPacker_pacc, BitVec.toNat_ofNat]
    have hvalue : (s.pacc.toNat * 2 + b.toNat) * 2 ^ rest.length + bitsValue rest =
        s.pacc.toNat * 2 ^ (rest.length + 1) + bitsValue (b :: rest) := by
      rw [bitsValue, Nat.pow_succ]
      ring
    have htotal : s.pcnt.toNat + 1 + rest.length = s.pcnt.toNat + (rest.length + 1) := by omega
    rw [State.pushAll_cons, ih (by omega), hcnt, hacc, ofNat_mod_mul_add, hvalue, htotal, hstep, List.length_cons]
    rfl

/-- R56: bits that complete the group emit it, and leave the packer at a boundary. -/
theorem State.pushAll_completes {s : State} {bits : List Bit} (h : s.pcnt.toNat + bits.length = 8) :
    s.pushAll bits =
      (s.byteOut (BitVec.ofNat 8 (s.pacc.toNat * 2 ^ bits.length + bitsValue bits))).withPacker 0 0 := by
  have hcnt := s.pcnt.isLt
  obtain rfl | ⟨init, b, rfl⟩ := bits.eq_nil_or_concat'
  · simp at h
    omega
  · rw [List.length_append, List.length_singleton] at h
    have hkept := State.pushAll_of_lt (s := s) (bits := init) (by omega)
    have hcnt7 : (s.pushAll init).pcnt.toNat + 1 = 8 := by
      rw [hkept, State.withPacker_pcnt, BitVec.toNat_ofNat, Nat.mod_eq_of_lt (by omega)]
      omega
    have hacc : (s.pushAll init).pacc.toNat = (s.pacc.toNat * 2 ^ init.length + bitsValue init) % 2 ^ 7 := by
      rw [hkept, State.withPacker_pacc, BitVec.toNat_ofNat]
    have hbyte : BitVec.ofNat 8 ((s.pushAll init).pacc.toNat * 2 + b.toNat) =
        BitVec.ofNat 8 (s.pacc.toNat * 2 ^ (init ++ [b]).length + bitsValue (init ++ [b])) := by
      have hvalue : s.pacc.toNat * 2 ^ (init.length + 1) + (bitsValue init * 2 + b.toNat) =
          (s.pacc.toNat * 2 ^ init.length + bitsValue init) * 2 + b.toNat := by
        rw [Nat.pow_succ]
        ring
      rw [bitsValue_append, bitsValue_singleton, List.length_append, List.length_singleton, Nat.pow_one, hvalue, hacc]
      apply BitVec.eq_of_toNat_eq
      rw [BitVec.toNat_ofNat, BitVec.toNat_ofNat]
      omega
    rw [State.pushAll_append, State.pushAll_cons, State.pushAll_nil, State.push1_eq, if_pos hcnt7, hbyte, hkept]
    rfl

/-- R56: the bits `xs` complete the group, and the bits `ys` after them are kept. -/
theorem State.pushAll_completes_append {s : State} {xs ys : List Bit} (hx : s.pcnt.toNat + xs.length = 8)
    (hy : ys.length < 8) :
    s.pushAll (xs ++ ys) =
      (s.byteOut (BitVec.ofNat 8 (s.pacc.toNat * 2 ^ xs.length + bitsValue xs))).withPacker
        (BitVec.ofNat 7 (bitsValue ys)) (BitVec.ofNat 3 ys.length) := by
  rw [State.pushAll_append, State.pushAll_completes hx, State.pushAll_of_lt (by simpa using hy)]
  simp [State.withPacker]

/-- R57, the closed form: of the value `x` of the held and the new bits, `t` in number, the packer emits `x div 2^(t-8)`
and keeps `x mod 2^(t-8)`. -/
theorem State.pushAll_of_ge {s : State} {bits : List Bit} (h : 8 ≤ s.pcnt.toNat + bits.length)
    (h' : s.pcnt.toNat + bits.length < 16) :
    s.pushAll bits =
      (s.byteOut (BitVec.ofNat 8
          ((s.pacc.toNat * 2 ^ bits.length + bitsValue bits) / 2 ^ (s.pcnt.toNat + bits.length - 8)))).withPacker
        (BitVec.ofNat 7 ((s.pacc.toNat * 2 ^ bits.length + bitsValue bits) % 2 ^ (s.pcnt.toNat + bits.length - 8)))
        (BitVec.ofNat 3 (s.pcnt.toNat + bits.length - 8)) := by
  have hcnt := s.pcnt.isLt
  obtain ⟨xs, ys, rfl, hx⟩ : ∃ xs ys, bits = xs ++ ys ∧ s.pcnt.toNat + xs.length = 8 :=
    ⟨bits.take (8 - s.pcnt.toNat), bits.drop (8 - s.pcnt.toNat), (List.take_append_drop _ _).symm, by
      rw [List.length_take]; omega⟩
  rw [List.length_append] at h h'
  have hover : s.pcnt.toNat + (xs.length + ys.length) - 8 = ys.length := by omega
  have hvalue : s.pacc.toNat * 2 ^ (xs.length + ys.length) + bitsValue (xs ++ ys) =
      2 ^ ys.length * (s.pacc.toNat * 2 ^ xs.length + bitsValue xs) + bitsValue ys := by
    rw [bitsValue_append, Nat.pow_add]
    ring
  have hlow := bitsValue_lt_two_pow ys
  rw [State.pushAll_completes_append hx (by omega), List.length_append, hover, hvalue,
    Nat.mul_add_div (Nat.two_pow_pos _), Nat.div_eq_of_lt hlow, Nat.add_zero, Nat.mul_add_mod, Nat.mod_eq_of_lt hlow]

/-! ### PUSH -/

theorem exec_of_readyFor {i : Instr} {s : State} (h : s.readyFor Config.depths i = true) :
    exec i s = .next (s.effectOf i).dropCmd := by
  rw [exec_eq_issue, h, issue_true]

/-- R56, R57: pushed bits change only PACC, PCNT and YOQ. -/
theorem State.pushAll_frame (s : State) (bits : List Bit) :
    s.pushAll bits =
      { s with pacc := (s.pushAll bits).pacc, pcnt := (s.pushAll bits).pcnt, yoq := (s.pushAll bits).yoq } :=
  (State.mk.injEq ..).mpr ⟨rfl, rfl, State.pushAll_ecause bits s, State.pushAll_boq bits s, rfl,
    State.pushAll_cmds bits s, State.pushAll_turns bits s, State.pushAll_answers bits s⟩

/-- Settles O18: PUSH emits one byte for each group it completes, and a PUSH of at most 8 bits completes at most one. -/
theorem pushEmitsAtMostOneByte : Obligations.PushEmitsAtMostOneByte := by
  intro s n v hn
  have hcnt := s.pcnt.isLt
  rw [State.pushField_yoq_length]
  split <;> omega

/-- Settles O21: the bits of the field are `pushBits`, and `Push1` on them changes only PACC, PCNT and YOQ. -/
theorem pushShiftsItsFieldBitByBit : Obligations.PushShiftsItsFieldBitByBit := by
  intro n v s _ hready
  refine ⟨s.pushField n v, by rw [← pushBits_eq_map]; rfl, ?_⟩
  rw [exec_of_readyFor (i := .push n v) hready, State.effectOf, State.pushField, State.pushAll_frame, State.dropCmd]

/-- Settles O22: a well-formed field's bits have the operand as their value, so the closed form is that of a bit string.
R26's bound on PACC is not needed: bits above it are cut off by the widths of PACC and of the emitted byte alike. -/
theorem pushFollowsItsClosedForm : Obligations.PushFollowsItsClosedForm := by
  intro n v s hwf _ hready
  obtain ⟨-, hn, hv⟩ := wellFormed_push_iff.1 hwf
  have hcnt := s.pcnt.isLt
  have hvalue := bitsValue_pushBits_of_lt hv
  have hlen := pushBits_length n v
  rw [exec_of_readyFor (i := .push n v) hready, State.effectOf, State.pushField]
  dsimp only
  split
  case isTrue h =>
    rw [State.pushAll_of_ge (by omega) (by omega), hvalue, hlen]
    rfl
  case isFalse h =>
    rw [State.pushAll_of_lt (by omega), hvalue, hlen]
    rfl

/-- Settles O23: the bits of the one operand are those of the two, in order. -/
theorem twoPushesAreOnePush : Obligations.TwoPushesAreOnePush := by
  intro s n1 n2 v1 v2 hn hv1 hv2
  rw [State.pushField, State.pushField, State.pushField, ← State.pushAll_append, pushBits_append hn hv1 hv2]

/-! ### FLUSH -/

theorem State.paddedGroup_eq (s : State) :
    s.paddedGroup = BitVec.ofNat 8 (s.pacc.toNat * 2 ^ (8 - s.pcnt.toNat)) := by
  apply BitVec.eq_of_toNat_eq
  have hacc := s.pacc.isLt
  have hwide : s.pacc.toNat % 2 ^ 8 = s.pacc.toNat := Nat.mod_eq_of_lt (by omega)
  rw [State.paddedGroup, BitVec.toNat_shiftLeft, BitVec.toNat_setWidth, hwide, Nat.shiftLeft_eq, BitVec.toNat_ofNat]

/-- Settles O25: the missing zero bits complete the group, and their value is 0. -/
theorem flushIsPushingZeroBits : Obligations.FlushIsPushingZeroBits := by
  intro s hs
  have hcnt := s.pcnt.isLt
  have hcompletes : s.pcnt.toNat + (zeros (8 - s.pcnt.toNat)).length = 8 := by
    rw [zeros_length]
    omega
  rw [State.flushGroup_unfinished hs, State.pushAll_completes hcompletes, State.paddedGroup_eq, zeros_length,
    bitsValue_zeros, Nat.add_zero]

/-- Settles O24: the padded group as a product, and at a boundary nothing. -/
theorem flushPadsTheUnfinishedGroup : Obligations.FlushPadsTheUnfinishedGroup := by
  intro s hready
  rw [exec_of_readyFor (i := .flush) hready, State.effectOf]
  split
  case isTrue h =>
    rw [State.flushGroup_unfinished h, State.paddedGroup_eq]
    rfl
  case isFalse h =>
    rw [State.flushGroup_boundary (not_not.1 h)]
    rfl

/-- R58: FLUSH at a boundary is accepted whatever YOQ holds, and does nothing. -/
theorem exec_flush_boundary {s : State} (h : s.pcnt = 0) : exec .flush s = .next { s with cmds := s.cmds.tail } := by
  have hready : s.flushReady Config.depths = true := (s.flushReady_iff _).2 fun hne => absurd h hne
  rw [flushPadsTheUnfinishedGroup s hready, if_neg (not_not.2 h)]

/-- Settles O45. -/
theorem emptyStringEmitsNothing : Obligations.EmptyStringEmitsNothing := ⟨rfl, fun _ => exec_flush_boundary⟩

end Sys2Proof.Machine
end

section
/-!
The function `bitsToBytes` (spec/41_packer.md R55) and the packer that pushes a bit string from a boundary (R56, R58).
Both read the string group by group: `group_induction` takes the first 8 bits off a string until fewer than 8 are left.
-/
namespace Sys2Proof.Machine

/-! ### Groups -/

/-- Induction over a bit string by its groups. -/
theorem group_induction {P : List Bit → Prop} (hshort : ∀ rest, rest.length < 8 → P rest)
    (hgroup : ∀ g rest, g.length = 8 → P rest → P (g ++ rest)) (bits : List Bit) : P bits := by
  by_cases h : bits.length < 8
  · exact hshort bits h
  · have hlen : (bits.take 8).length = 8 := by
      rw [List.length_take]
      omega
    rw [← List.take_append_drop 8 bits]
    exact hgroup _ _ hlen (group_induction hshort hgroup (bits.drop 8))
termination_by bits.length
decreasing_by
  rw [List.length_drop]
  omega

theorem groupAt_append_succ {g : List Bit} (rest : List Bit) (j : Nat) (hg : g.length = 8) :
    groupAt (g ++ rest) (j + 1) = groupAt rest j := by
  have hskip : 8 * (j + 1) = g.length + 8 * j := by omega
  rw [groupAt, hskip, List.drop_length_add_append, groupAt]

theorem groupBytes_of_lt {bits : List Bit} (h : bits.length < 8) : groupBytes bits = [] := by
  rw [groupBytes, Nat.div_eq_of_lt h]
  rfl

/-- R55: the first 8 bits are the first byte. -/
theorem groupBytes_append {g : List Bit} (rest : List Bit) (hg : g.length = 8) :
    groupBytes (g ++ rest) = byteOf g :: groupBytes rest := by
  have hcount : (g ++ rest).length / 8 = rest.length / 8 + 1 := by
    rw [List.length_append]
    omega
  have hfirst : groupAt (g ++ rest) 0 = g := List.take_left' hg
  rw [groupBytes, hcount, List.range_succ_eq_map, List.map_cons, hfirst, List.map_map, groupBytes]
  congr 1
  refine List.map_congr_left fun j _ => ?_
  rw [Function.comp_apply, Nat.succ_eq_add_one, groupAt_append_succ rest j hg]

theorem groupBytes_length (bits : List Bit) : (groupBytes bits).length = bits.length / 8 := by simp [groupBytes]

/-! ### Groups and bytes -/

theorem bits8_eq_pushBits (b : Byte) : bits8 b = pushBits 8 b := rfl

/-- R50, R55: a byte is the byte of its bits. -/
theorem byteOf_bits8 (b : Byte) : byteOf (bits8 b) = b := by
  rw [byteOf, bits8_eq_pushBits, bitsValue_pushBits_of_lt b.isLt]
  exact ofNat_toNat_of_eq rfl

/-- R50, R55: a group is the bits of its byte. -/
theorem bits8_byteOf {g : List Bit} (hg : g.length = 8) : bits8 (byteOf g) = g := by
  have hbits : pushBits g.length (byteOf g) = g := pushBits_bitsPush hg.le
  rwa [hg] at hbits

theorem bytesToBits_groupBytes {bits : List Bit} (h : bits.length % 8 = 0) : bytesToBits (groupBytes bits) = bits := by
  induction bits using group_induction with
  | hshort rest hlt =>
    have hnil : rest = [] := List.length_eq_zero_iff.1 (by omega)
    rw [hnil]
    rfl
  | hgroup g rest hg ih =>
    rw [List.length_append] at h
    rw [groupBytes_append rest hg, bytesToBits_cons, bits8_byteOf hg, ih (by omega)]

theorem groupBytes_bytesToBits (bs : List Byte) : groupBytes (bytesToBits bs) = bs := by
  induction bs with
  | nil => rfl
  | cons b bs ih => rw [bytesToBits_cons, groupBytes_append _ (bits8_length b), byteOf_bits8, ih]

/-! ### Padding -/

theorem pad_of_ne_zero {len : Nat} (h : len % 8 ≠ 0) : pad len = 8 - len % 8 := if_pos h

theorem pad_eq_zero_iff {len : Nat} : pad len = 0 ↔ len % 8 = 0 := by
  unfold pad
  split <;> omega

/-- R55: the padding completes the last group. -/
theorem length_add_pad (len : Nat) : pad len ≤ 7 ∧ (len + pad len) % 8 = 0 ∧ (len + pad len) / 8 = (len + 7) / 8 := by
  unfold pad
  split <;> omega

/-- R55: the string with its padding. -/
def padded (bits : List Bit) : List Bit := bits ++ zeros (pad bits.length)

theorem bitsToBytes_eq (bits : List Bit) : bitsToBytes bits = groupBytes (padded bits) := rfl

theorem padded_length (bits : List Bit) : (padded bits).length = bits.length + pad bits.length := by simp [padded]

/-- R61: an aligned string is not padded. -/
theorem padded_of_aligned {bits : List Bit} (h : bits.length % 8 = 0) : padded bits = bits := by
  rw [padded, pad_eq_zero_iff.2 h]
  exact List.append_nil bits

/-- R55: the padding bits are 0. -/
theorem padded_getElem? {bits : List Bit} {k : Nat} (h : k < (padded bits).length) :
    (padded bits)[k]? = some (bits[k]?.getD false) := by
  rw [padded_length] at h
  by_cases hk : k < bits.length
  · rw [padded, List.getElem?_append_left hk, List.getElem?_eq_getElem hk]
    rfl
  · have hpad : k - bits.length < pad bits.length := by omega
    rw [padded, List.getElem?_append_right (by omega), zeros, List.getElem?_replicate_of_lt hpad,
      List.getElem?_eq_none (by omega)]
    rfl

/-! ### `bitsToBytes` -/

theorem bitsToBytes_length (bits : List Bit) : (bitsToBytes bits).length = (bits.length + 7) / 8 := by
  obtain ⟨-, -, hdiv⟩ := length_add_pad bits.length
  rw [bitsToBytes_eq, groupBytes_length, padded_length, hdiv]

/-- R61: an aligned string is cut into its own groups. -/
theorem bitsToBytes_of_aligned {bits : List Bit} (h : bits.length % 8 = 0) : bitsToBytes bits = groupBytes bits := by
  rw [bitsToBytes_eq, padded_of_aligned h]

/-- R65: the padding comes back. -/
theorem bytesToBits_bitsToBytes (bits : List Bit) : bytesToBits (bitsToBytes bits) = padded bits := by
  obtain ⟨-, haligned, -⟩ := length_add_pad bits.length
  rw [bitsToBytes_eq, bytesToBits_groupBytes (by rw [padded_length, haligned])]

/-- R63. -/
theorem bitsToBytes_bytesToBits (bs : List Byte) : bitsToBytes (bytesToBits bs) = bs := by
  rw [bitsToBytes_of_aligned (by rw [bytesToBits_length]; omega), groupBytes_bytesToBits]

/-- Settles O41: the bits of the bytes are those of the padded string (R65), so a bit past the string's end is a padding
bit. -/
theorem bitsToBytesPadsTheEndWithZeros : Obligations.BitsToBytesPadsTheEndWithZeros := by
  refine ⟨rfl, fun s => ?_⟩
  obtain ⟨hpad, haligned, -⟩ := length_add_pad s.length
  refine ⟨bitsToBytes_length s, hpad, haligned, fun j k hj hk => ?_⟩
  have hin : 8 * j + k < (padded s).length := by
    rw [← bytesToBits_bitsToBytes, bytesToBits_length]
    omega
  rw [← bytesToBits_getElem? _ hk, bytesToBits_bitsToBytes, padded_getElem? hin]

/-- Settles O43: the padded string is the string exactly when no bit was added. -/
theorem paddingIsNeverRemoved : Obligations.PaddingIsNeverRemoved := by
  refine ⟨bytesToBits_bitsToBytes, fun s => ⟨fun h => ?_, fun h => ?_⟩, by decide, by decide, by decide⟩
  · have hlen : s.length + pad s.length = s.length := by rw [← padded_length, ← bytesToBits_bitsToBytes, h]
    exact pad_eq_zero_iff.1 (by omega)
  · rw [bytesToBits_bitsToBytes, padded_of_aligned h]

/-! ### Pushing from a boundary -/

/-- A packer that holds no bit, between two groups (R34). -/
structure State.AtBoundary (s : State) : Prop where
  pcnt : s.pcnt = 0
  pacc : s.pacc = 0

/-- R56: bits pushed from a boundary are emitted group by group, and the bits after the last group are held. -/
theorem State.pushAll_boundary {s : State} (hs : s.AtBoundary) (bits : List Bit) :
    s.pushAll bits =
      { s with yoq := s.yoq ++ groupBytes bits,
               pcnt := BitVec.ofNat 3 (bits.length % 8),
               pacc := BitVec.ofNat 7 (bitsValue (bits.drop (8 * (bits.length / 8)))) } := by
  induction bits using group_induction generalizing s with
  | hshort rest hlt =>
    rw [State.pushAll_of_lt (by simpa [hs.pcnt] using hlt), groupBytes_of_lt hlt, Nat.mod_eq_of_lt hlt,
      Nat.div_eq_of_lt hlt]
    simp [State.withPacker, hs.pcnt, hs.pacc]
  | hgroup g rest hg ih =>
    have hemit : s.pushAll g = s.byteOut (byteOf g) := by
      rw [State.pushAll_completes (by simp [hs.pcnt, hg])]
      simp [State.withPacker, State.byteOut, byteOf, hs.pcnt, hs.pacc]
    have hmod : (g ++ rest).length % 8 = rest.length % 8 := by
      rw [List.length_append]
      omega
    have hdrop : (g ++ rest).drop (8 * ((g ++ rest).length / 8)) = rest.drop (8 * (rest.length / 8)) := by
      have hskip : 8 * ((g ++ rest).length / 8) = g.length + 8 * (rest.length / 8) := by
        rw [List.length_append]
        omega
      rw [hskip, List.drop_length_add_append]
    rw [State.pushAll_append, hemit, ih (s := s.byteOut (byteOf g)) ⟨hs.pcnt, hs.pacc⟩, groupBytes_append rest hg,
      hmod, hdrop]
    simp [State.byteOut]

/-- R61: an aligned string leaves the packer at a boundary again. -/
theorem State.pushAll_aligned {s : State} (hs : s.AtBoundary) {bits : List Bit} (h : bits.length % 8 = 0) :
    s.pushAll bits = { s with yoq := s.yoq ++ groupBytes bits } := by
  have hall : 8 * (bits.length / 8) = bits.length := by omega
  rw [State.pushAll_boundary hs, h, hall, List.drop_length]
  simp [bitsValue, hs.pcnt, hs.pacc]

theorem State.pushAll_pcnt_of_boundary {s : State} (hs : s.AtBoundary) (bits : List Bit) :
    (s.pushAll bits).pcnt.toNat = bits.length % 8 := by
  rw [(s.pushAll_counts bits).1, hs.pcnt]
  simp

/-- R58: after a bit string pushed from a boundary, FLUSH pushes the string's padding. -/
theorem State.flushGroup_pushAll {s : State} (hs : s.AtBoundary) (bits : List Bit) :
    (s.pushAll bits).flushGroup = s.pushAll (padded bits) := by
  have hcnt := State.pushAll_pcnt_of_boundary hs bits
  by_cases h : bits.length % 8 = 0
  · rw [padded_of_aligned h, State.flushGroup_boundary (BitVec.eq_of_toNat_eq (hcnt.trans h))]
  · have hunfinished : (s.pushAll bits).pcnt ≠ 0 := fun hzero => h (by rw [← hcnt, hzero]; rfl)
    rw [flushIsPushingZeroBits _ hunfinished, hcnt, ← pad_of_ne_zero h, ← State.pushAll_append, padded]

/-- R59: a bit string pushed from a boundary and ended by FLUSH puts `bitsToBytes` of it into YOQ, and leaves the rest
of the state as it was. -/
theorem State.flushGroup_pushAll_eq {s : State} (hs : s.AtBoundary) (bits : List Bit) :
    (s.pushAll bits).flushGroup = { s with yoq := s.yoq ++ bitsToBytes bits } := by
  obtain ⟨-, haligned, -⟩ := length_add_pad bits.length
  rw [State.flushGroup_pushAll hs, State.pushAll_aligned hs (by rw [padded_length, haligned]), bitsToBytes_eq]

/-- Settles O27: one bit is the definition read as arithmetic, any number goes group by group. -/
theorem pushedBitsAreEmittedInGroupsOfEight : Obligations.PushedBitsAreEmittedInGroupsOfEight :=
  ⟨State.push1_eq, fun _ bits hcnt hacc => State.pushAll_boundary ⟨hcnt, hacc⟩ bits⟩

/-- Settles O42: the bits of a byte sequence are aligned, and their groups are the sequence. -/
theorem packingInvertsSerializing : Obligations.PackingInvertsSerializing := by
  refine ⟨bitsToBytes_bytesToBits, fun s bs hcnt hacc => ?_⟩
  have haligned : (bytesToBits bs).length % 8 = 0 := by
    rw [bytesToBits_length]
    omega
  have hpush : s.pushAll (bytesToBits bs) = { s with yoq := s.yoq ++ bs } := by
    rw [State.pushAll_aligned ⟨hcnt, hacc⟩ haligned, groupBytes_bytesToBits]
  refine ⟨hpush, ?_⟩
  rw [hpush, State.flushGroup_boundary (s := { s with yoq := s.yoq ++ bs }) hcnt]

/-- Settles O44: an aligned string leaves the packer at a boundary, where FLUSH does nothing. -/
theorem alignedStringsAreNotPadded : Obligations.AlignedStringsAreNotPadded := by
  intro bits haligned
  refine ⟨pad_eq_zero_iff.2 haligned, bitsToBytes_of_aligned haligned, fun s hcnt hacc => ?_⟩
  have hpush := State.pushAll_aligned ⟨hcnt, hacc⟩ haligned
  have hcnt' : (s.pushAll bits).pcnt = 0 := by rw [hpush]; exact hcnt
  refine ⟨hcnt', State.flushGroup_boundary hcnt', ?_⟩
  rw [bitsToBytes_of_aligned haligned, hpush]

end Sys2Proof.Machine
end

section
/-!
Runs of the packer (spec/41_packer.md R59, R60). As for the serializer, the bytes taken followed by YOQ are one stream.
`State.packed` is the packer with that stream for its YOQ: a step without Reset has on it the effect of the command it
transfers, if any, and nothing else, so a run has the effect of the accepted commands in order.
-/
namespace Sys2Proof.Machine

/-! ### The bytes taken -/

theorem State.bytesTaken_congr {s t : State} (h : t.answers = s.answers) : t.bytesTaken = s.bytesTaken := by
  rw [State.bytesTaken, h, State.bytesTaken]

/-- R18: the bytes the host has taken, followed by what remains in YOQ. -/
def State.byteStream (s : State) : List Byte := s.bytesTaken ++ s.yoq

theorem State.byteStream_congr {s t : State} (ha : t.answers = s.answers) (hy : t.yoq = s.yoq) :
    t.byteStream = s.byteStream := by
  rw [State.byteStream, State.bytesTaken_congr ha, hy, State.byteStream]

theorem State.readStatus_byteStream (s : State) : s.readStatus.byteStream = s.byteStream := by
  simp [State.byteStream, State.readStatus, State.bytesTaken]

theorem State.takeBit_byteStream (s : State) : s.takeBit.byteStream = s.byteStream := by
  obtain ⟨-, heq⟩ | ⟨b, rest, -, heq⟩ := s.takeBit_cases <;> simp [heq, State.byteStream, State.bytesTaken]

/-- R28: a take moves the first unread byte to the taken ones. -/
theorem State.takeByte_byteStream (s : State) : s.takeByte.byteStream = s.byteStream := by
  obtain ⟨-, heq⟩ | ⟨v, rest, hq, heq⟩ := s.takeByte_cases <;> rw [heq]
  simp [State.byteStream, State.bytesTaken, hq]

/-! ### The packer and its stream -/

/-- The packer on its own, with every byte it has put out, taken or not, for its YOQ. -/
def State.packed (s : State) : State :=
  { State.reset with pacc := s.pacc, pcnt := s.pcnt, yoq := s.byteStream }

theorem State.packed_congr {s t : State} (hacc : t.pacc = s.pacc) (hcnt : t.pcnt = s.pcnt)
    (hstream : t.byteStream = s.byteStream) : t.packed = s.packed := by
  rw [State.packed, hacc, hcnt, hstream, State.packed]

theorem State.packed_emit (s : State) (v : Byte) :
    ((s.byteOut v).withPacker 0 0).packed = (s.packed.byteOut v).withPacker 0 0 := by
  have hstream : ((s.byteOut v).withPacker 0 0).byteStream = s.byteStream ++ [v] := (List.append_assoc _ _ _).symm
  rw [State.packed, hstream]
  rfl

/-- R56: what the host has taken does not matter to `Push1`. -/
theorem State.packed_push1 (s : State) (b : Bit) : (s.push1 b).packed = s.packed.push1 b := by
  obtain ⟨h, heq⟩ | ⟨h, heq⟩ := s.push1_cases b
  · rw [heq, State.packed_emit, State.push1_full (s := s.packed) b h]
    rfl
  · rw [heq, State.push1_partial (s := s.packed) b h]
    rfl

theorem State.packed_pushAll (s : State) (bits : List Bit) : (s.pushAll bits).packed = s.packed.pushAll bits := by
  induction bits generalizing s with
  | nil => rfl
  | cons b rest ih => rw [State.pushAll_cons, State.pushAll_cons, ih, State.packed_push1]

theorem State.packed_flushGroup (s : State) : s.flushGroup.packed = s.packed.flushGroup := by
  obtain ⟨h, heq⟩ | ⟨h, heq⟩ := s.flushGroup_cases
  · rw [heq, State.flushGroup_boundary (s := s.packed) h]
  · rw [heq, State.packed_emit, State.flushGroup_unfinished (s := s.packed) h]
    rfl

/-- The effect of a command on the packer alone (R54, R57, R58, R68). -/
def State.packerEffect (s : State) : Instr → State
  | .push n v => s.pushField n v
  | .flush => s.flushGroup
  | .clear => s.withPacker 0 0
  | .nop => s
  | .ser _ => s

theorem State.packed_effectOf (s : State) (i : Instr) : (s.effectOf i).packed = s.packed.packerEffect i := by
  cases i with
  | nop | clear => rfl
  | ser d =>
    exact State.packed_congr (s.serialize_pacc d) (s.serialize_pcnt d)
      (State.byteStream_congr (s.serialize_answers d) (s.serialize_yoq d))
  | push n v => exact s.packed_pushAll (pushBits n v)
  | flush => exact s.packed_flushGroup

theorem State.packed_raiseCmdError (s : State) (c : Cause) : (s.raiseCmdError c).packed = s.packed :=
  State.packed_congr (s.raiseCmdError_pacc c) (s.raiseCmdError_pcnt c)
    (State.byteStream_congr (s.raiseCmdError_answers c) (s.raiseCmdError_yoq c))

/-! ### The packer under the accepted words -/

theorem commandsOf_append (xs ys : List CmdWord) : commandsOf (xs ++ ys) = commandsOf xs ++ commandsOf ys :=
  List.filterMap_append

theorem commandsOf_of_cmd {w : CmdWord} {i : Instr} (h : decode w = .cmd i) : commandsOf [w] = [i] := by
  simp [commandsOf, commandOf, h]

theorem commandsOf_of_error {w : CmdWord} {c : Cause} (h : decode w = .error c) : commandsOf [w] = [] := by
  simp [commandsOf, commandOf, h]

/-- The effect on the packer of the commands among some words, in order. -/
def State.packerRun (s : State) (ws : List CmdWord) : State := (commandsOf ws).foldl State.packerEffect s

theorem State.packerRun_nil (s : State) : s.packerRun [] = s := rfl

theorem State.packerRun_append (s : State) (xs ys : List CmdWord) :
    s.packerRun (xs ++ ys) = (s.packerRun xs).packerRun ys := by
  rw [State.packerRun, commandsOf_append, List.foldl_append]
  rfl

theorem State.packed_effectOfDecoded (s : State) (w : CmdWord) :
    (s.effectOfDecoded (decode w)).packed = s.packed.packerRun [w] := by
  cases h : decode w with
  | cmd i => rw [State.packerRun, commandsOf_of_cmd h]; exact s.packed_effectOf i
  | error c => rw [State.packerRun, commandsOf_of_error h]; exact s.packed_raiseCmdError c

/-- R54, R59 for one step: the packer and its stream change by the word that the step transfers, if any. -/
theorem step_packed {s t : State} (h : step s = .next t) (hreset : s.nextTurn ≠ .reset) :
    t.packed = s.packed.packerRun s.transfers.toList := by
  have hnone (hn : s.transfers = none) (ht : t.packed = s.packed) :
      t.packed = s.packed.packerRun s.transfers.toList := by
    rw [hn, ht]
    rfl
  obtain ⟨-, hw, rfl⟩ | ⟨w, hturn, hw, hacc, rfl⟩ | ⟨w, -, hw, hheld, rfl⟩ | ⟨hturn, rfl⟩ | ⟨hturn, rfl⟩ |
    ⟨hturn, rfl⟩ | ⟨hturn, -⟩ | ⟨hturn, rfl⟩ := step_cases h
  · exact hnone (State.transfers_of_idle hw) rfl
  · rw [State.transfers_of_accepts hturn hw hacc]
    exact s.dropTurn.packed_effectOfDecoded w
  · exact hnone (State.transfers_of_held hw hheld) rfl
  · exact hnone (State.transfers_of_turn (by simp [hturn]))
      (State.packed_congr (State.takeBit_pacc _) (State.takeBit_pcnt _) s.dropTurn.takeBit_byteStream)
  · exact hnone (State.transfers_of_turn (by simp [hturn]))
      (State.packed_congr (State.takeByte_pacc _) (State.takeByte_pcnt _) s.dropTurn.takeByte_byteStream)
  · exact hnone (State.transfers_of_turn (by simp [hturn]))
      (State.packed_congr rfl rfl s.dropTurn.readStatus_byteStream)
  · exact absurd hturn hreset
  · exact hnone (State.transfers_of_turn (by simp [hturn])) rfl

/-- R59 for a run: the packer and its stream change by the accepted words, whatever else happens in between. -/
theorem run_packed {k : Nat} {s t : State} (hrun : run k s = .next t) (hreset : ∀ u ∈ s.turns.take k, u ≠ .reset) :
    t.packed = s.packed.packerRun (acceptedWords k s) := by
  refine run_induction (P := (· ≠ .reset)) (R := fun s ws t => t.packed = s.packed.packerRun ws)
    (by decide) (fun s => rfl) (fun s u t ws hu hturn ih => ?_) hrun hreset
  rw [ih, step_packed hu hturn, State.packerRun_append]

/-! ### Runs of PUSH -/

/-- R66: commands that end no bit string push their bits in order, however these are cut. -/
theorem State.packerRun_pushes {s : State} {ws : List CmdWord} (h : ∀ i ∈ commandsOf ws, i ≠ .flush ∧ i ≠ .clear) :
    s.packerRun ws = s.pushAll (pushedBits ws) := by
  rw [State.packerRun, pushedBits]
  generalize commandsOf ws = is at h ⊢
  induction is generalizing s with
  | nil => rfl
  | cons i is ih =>
    rw [List.forall_mem_cons] at h
    obtain ⟨⟨hflush, hclear⟩, hrest⟩ := h
    rw [List.foldl_cons, ih hrest, List.flatMap_cons, State.pushAll_append]
    cases i with
    | nop | ser d | push n v => rfl
    | flush => exact absurd rfl hflush
    | clear => exact absurd rfl hclear

/-- R26: a packer that counts no bit holds none. -/
theorem State.Inv.atBoundary {s : State} (hinv : s.Inv) (hcnt : s.pcnt = 0) : s.AtBoundary := by
  obtain ⟨hacc, -, -, -⟩ := hinv
  have hzero : s.pcnt.toNat = 0 := by simp [hcnt]
  rw [hzero, Nat.pow_zero, Nat.lt_one_iff] at hacc
  exact ⟨hcnt, BitVec.eq_of_toNat_eq hacc⟩

/-- R59: over a run whose accepted words push a bit string and then end it, the stream grows by `bitsToBytes` of it. -/
theorem run_packed_flush {k : Nat} {s t : State} {ws : List CmdWord} (hs : s.AtBoundary) (hrun : run k s = .next t)
    (hreset : ∀ u ∈ s.turns.take k, u ≠ .reset) (hws : acceptedWords k s = ws ++ [encode .flush])
    (hpush : ∀ i ∈ commandsOf ws, i ≠ .flush ∧ i ≠ .clear) :
    t.packed = { s.packed with yoq := s.byteStream ++ bitsToBytes (pushedBits ws) } := by
  have hflush (u : State) : u.packerRun [encode .flush] = u.flushGroup := by
    rw [State.packerRun, commandsOf_of_cmd (decodeOfEncodeIsTheCommand .flush rfl)]
    rfl
  rw [run_packed hrun hreset, hws, State.packerRun_append, State.packerRun_pushes hpush, hflush,
    State.flushGroup_pushAll_eq (s := s.packed) ⟨hs.pcnt, hs.pacc⟩]
  rfl

/-! ### PACK -/

theorem commandsOf_encode {is : List Instr} (h : ∀ i ∈ is, i.wellFormed = true) : commandsOf (is.map encode) = is := by
  induction is with
  | nil => rfl
  | cons i is ih =>
    rw [List.forall_mem_cons] at h
    obtain ⟨hi, hrest⟩ := h
    rw [List.map_cons, ← List.singleton_append, commandsOf_append, ih hrest,
      commandsOf_of_cmd (decodeOfEncodeIsTheCommand i hi), List.singleton_append]

/-- R49, R59: PACK's words before its FLUSH. -/
def packPushWords (bits : List Bit) : List CmdWord := (packPushes bits).map fun p => encode (.push p.1 p.2)

theorem commandsOf_packPushWords (bits : List Bit) :
    commandsOf (packPushWords bits) = (packPushes bits).map fun p => .push p.1 p.2 := by
  have hwf : ∀ i ∈ (packPushes bits).map (fun p => Instr.push p.1 p.2), i.wellFormed = true := by
    rw [List.forall_mem_map]
    exact fun _ => packPushes_wellFormed
  rw [packPushWords, ← commandsOf_encode hwf, List.map_map]
  rfl

theorem pushedBits_packPushWords (bits : List Bit) : pushedBits (packPushWords bits) = bits := by
  rw [pushedBits, commandsOf_packPushWords, List.flatMap_map]
  exact packPushes_bits bits

theorem packPushWords_push {bits : List Bit} {i : Instr} (h : i ∈ commandsOf (packPushWords bits)) :
    i ≠ .flush ∧ i ≠ .clear := by
  rw [commandsOf_packPushWords] at h
  obtain ⟨p, -, rfl⟩ := List.mem_map.1 h
  exact ⟨nofun, nofun⟩

/-- Settles O47: the packer and its stream after the run (R59), the length of `bitsToBytes` (R60), and PACK's words. -/
theorem packRunsRealizeBitsToBytes : Obligations.PackRunsRealizeBitsToBytes := by
  refine ⟨fun k s t ws hinv hcnt hrun hreset hws hpush => ?_, fun bits => ?_⟩
  · have hs := hinv.atBoundary hcnt
    have hpacked := run_packed_flush hs hrun hreset hws hpush
    exact ⟨congrArg State.yoq hpacked, bitsToBytes_length _, (congrArg State.pcnt hpacked).trans hs.pcnt,
      (congrArg State.pacc hpacked).trans hs.pacc⟩
  · exact ⟨packPushWords bits, assemble_pack bits, pushedBits_packPushWords bits, fun _ => packPushWords_push⟩

end Sys2Proof.Machine
end

section
/-!
NOP and CLEAR (spec/42_control.md R67, R68): neither writes a FIFO, so acceptance (R27) asks for no room and the whole
effect always happens.
-/
namespace Sys2Proof.Machine

/-! ### NOP -/

theorem State.readyFor_nop (c : Depths) (s : State) : s.readyFor c .nop = true := rfl

/-- Settles O19: NOP is ready, and its effect is to leave the state as it is. -/
theorem nopChangesNothing : Obligations.NopChangesNothing := by
  refine ⟨fun s => ?_, State.readyFor_nop⟩
  rw [exec_of_readyFor (s.readyFor_nop _), State.effectOf, State.dropCmd]

/-! ### CLEAR -/

theorem State.readyFor_clear (c : Depths) (s : State) : s.readyFor c .clear = true := rfl

theorem exec_clear (s : State) : exec .clear s = .next s.clearRegisters.dropCmd := by
  rw [exec_of_readyFor (s.readyFor_clear _), State.effectOf]

/-- R30, R68: CLEAR leaves the registers with their reset values, so STATUS and ERR show what they show after reset. -/
theorem State.status_err_clearRegisters (s : State) :
    s.clearRegisters.dropCmd.status = 0 ∧ s.clearRegisters.dropCmd.err = false := by
  have hstatus : s.clearRegisters.dropCmd.status = State.reset.status := State.status_congr rfl rfl rfl
  rw [← State.status_err, hstatus]
  decide

/-- Settles O26: the frame is that of `clearRegisters`, STATUS and ERR are those of the reset state. -/
theorem clearResetsTheRegistersOnly : Obligations.ClearResetsTheRegistersOnly := by
  refine ⟨exec_clear, State.readyFor_clear, fun s t h => ?_⟩
  rw [exec_clear] at h
  cases h
  exact s.status_err_clearRegisters

end Sys2Proof.Machine
end

section
/-!
Errors (spec/60_exceptions.md R70, R72): a word that is no command is never held and only records its cause, a recorded
cause outlasts every later word but CLEAR, and no event of the host stops the block.
-/
namespace Sys2Proof.Machine

/-! ### The first cause -/

/-- R27, R70: an error word asks for no room. -/
theorem State.accepts_of_decode_error {w : CmdWord} {c : Cause} (hdec : decode w = .error c) (depths : Depths)
    (s : State) : s.accepts depths w = true := by
  rw [State.accepts, hdec, State.acceptsDecoded]

/-- R22, R70: ERR is 1 once ECAUSE holds the first cause, whatever the host's fields are. -/
theorem State.err_of_ecause_recorded {s t : State} (c : Cause)
    (h : t.ecause = if s.ecause = 0 then causeCode c else s.ecause) : t.err = true := by
  have herr := s.raiseCmdError_err c
  rw [State.raiseCmdError_eq, State.err_iff] at herr
  rw [State.err_iff, h]
  exact herr

/-- R70: CLEAR writes a recorded cause; of the other words only an error writes ECAUSE at all, and a later error is not
recorded. -/
theorem State.effectOfDecoded_keeps_cause {s : State} {d : Decoded} (h : s.ecause ≠ 0) (hd : d ≠ .cmd .clear) :
    (s.effectOfDecoded d).ecause = s.ecause := by
  by_contra hne
  obtain hclear | ⟨c, rfl⟩ := State.effectOfDecoded_writes_ecause hne
  · exact hd hclear
  · exact hne (congrArg State.ecause (State.raiseCmdError_later c h))

/-- R70: a recorded cause is kept by every step but Reset and an accepted CLEAR. -/
theorem step_keeps_cause {s t : State} (h : step s = .next t) (hcause : s.ecause ≠ 0) (hreset : s.nextTurn ≠ .reset)
    (hclear : s.transfers ≠ some 0x4000) : t.ecause = s.ecause := by
  obtain ⟨w, hw, rfl⟩ | hframe := step_transfers_or_takes h hreset
  · have hdec : decode w ≠ .cmd .clear := fun hdec => hclear (eq_of_decode_eq_clear hdec ▸ hw)
    exact State.effectOfDecoded_keeps_cause (s := s.dropTurn) hcause hdec
  · exact hframe.ecause

/-- Settles O29: the step of an error word, and `step_keeps_cause` for every other step. -/
theorem errorWordsRecordTheFirstCause : Obligations.ErrorWordsRecordTheFirstCause := by
  refine ⟨fun s w c hturn hw hdec => ⟨fun depths => s.accepts_of_decode_error hdec depths, ?_⟩,
    fun _ _ => step_keeps_cause⟩
  exact ⟨_, step_of_decode_error hdec hturn hw, State.err_of_ecause_recorded (s := s) c rfl, rfl⟩

/-! ### No event stops the block -/

/-- R27: a transfer answers a next state whether the block is ready or not. -/
theorem issue_goes_on (ready : Bool) (effect : State → State) (s : State) : ∃ t, issue ready effect s = .next t := by
  cases ready with
  | true => exact ⟨_, issue_true effect s⟩
  | false => exact ⟨_, issue_false effect s⟩

/-- R43, R72: a word's execution goes on, a command's and an error's. -/
theorem execDecoded_goes_on (d : Decoded) (s : State) : ∃ t, execDecoded d s = .next t := by
  rw [execDecoded_eq_issue]
  exact issue_goes_on _ _ s

/-- R12: so does the command port's turn, with a word presented or idle. -/
theorem transferCmd_goes_on (s : State) : ∃ t, transferCmd s = .next t := by
  cases hw : s.presented with
  | none => exact ⟨s, transferCmd_idle hw⟩
  | some w =>
    rw [transferCmd_eq_execDecoded hw]
    exact execDecoded_goes_on _ s

/-- Settles O12, by the turn: the command port's is `transferCmd_goes_on`, and every other turn answers `.next` outright. -/
theorem everyStepGoesOn : Obligations.EveryStepGoesOn := by
  intro s
  cases hturn : s.nextTurn <;> rw [step_eq_runTurn hturn, runTurn]
  case cmd => exact transferCmd_goes_on s.dropTurn
  all_goals exact ⟨_, rfl⟩

end Sys2Proof.Machine
end

section
/-!
Reset and an unfinished bit string (spec/70_reset_and_hazards.md R81, R85). Reset and takes are all that removes FIFO
contents: every other step only appends. And what the packer has put out before FLUSH is a prefix of `bitsToBytes`: the
padding of the string changes none of its complete groups.
-/
namespace Sys2Proof.Machine

/-! ### Before FLUSH -/

/-- R55: bits put after a string do not change its complete groups. -/
theorem groupBytes_append_take (bits more : List Bit) :
    (groupBytes (bits ++ more)).take (bits.length / 8) = groupBytes bits := by
  induction bits using group_induction with
  | hshort rest hlt => rw [Nat.div_eq_of_lt hlt, List.take_zero, groupBytes_of_lt hlt]
  | hgroup g rest hg ih =>
    have hcount : (g ++ rest).length / 8 = rest.length / 8 + 1 := by
      rw [List.length_append]
      omega
    rw [List.append_assoc, groupBytes_append _ hg, hcount, List.take_succ_cons, ih, groupBytes_append rest hg]

/-- R85: the complete groups of a string are the first bytes of its `bitsToBytes`. -/
theorem bitsToBytes_take (bits : List Bit) : (bitsToBytes bits).take (bits.length / 8) = groupBytes bits :=
  groupBytes_append_take bits _

/-- R85: over a run whose accepted words only push, the packer and its stream change as by the pushed bits. -/
theorem run_packed_pushes {k : Nat} {s t : State} (hrun : run k s = .next t)
    (hreset : ∀ u ∈ s.turns.take k, u ≠ .reset)
    (hpush : ∀ i ∈ commandsOf (acceptedWords k s), i ≠ .flush ∧ i ≠ .clear) :
    t.packed = s.packed.pushAll (pushedBits (acceptedWords k s)) := by
  rw [run_packed hrun hreset, State.packerRun_pushes hpush]

/-- Settles O48: the run's effect on the packer's stream and count is that of the pushed bits from a boundary, and their
complete groups are the first bytes of `bitsToBytes`. -/
theorem beforeFlushOnlyCompleteGroupsAreOut : Obligations.BeforeFlushOnlyCompleteGroupsAreOut := by
  intro k s t hinv hcnt hrun hreset hpush
  have hs : s.packed.AtBoundary := ⟨hcnt, (hinv.atBoundary hcnt).pacc⟩
  have hpacked := run_packed_pushes hrun hreset hpush
  refine ⟨?_, ?_⟩
  · rw [bitsToBytes_take]
    exact congrArg State.yoq (hpacked.trans (State.pushAll_boundary hs _))
  · rw [← State.pushAll_pcnt_of_boundary hs, ← hpacked]
    rfl

/-! ### Reset -/

/-- R81: a Reset turn is `resetBlock`, the use of the turn apart. -/
theorem step_reset {s : State} (h : s.nextTurn = .reset) : step s = .next s.dropTurn.resetBlock := step_eq_runTurn h

/-! ### What only appends -/

/-- R56: `Push1` only appends to YOQ. -/
theorem State.push1_yoq_prefix (s : State) (b : Bit) : s.yoq <+: (s.push1 b).yoq := by
  obtain ⟨-, heq⟩ | ⟨-, heq⟩ := s.push1_cases b
  · rw [heq]
    exact List.prefix_append _ _
  · rw [heq, State.withPacker_yoq]

theorem State.pushAll_yoq_prefix (s : State) (bits : List Bit) : s.yoq <+: (s.pushAll bits).yoq := by
  induction bits generalizing s with
  | nil => exact List.prefix_rfl
  | cons b rest ih => exact (s.push1_yoq_prefix b).trans (ih (s.push1 b))

theorem State.flushGroup_yoq_prefix (s : State) : s.yoq <+: s.flushGroup.yoq := by
  obtain ⟨-, heq⟩ | ⟨-, heq⟩ := s.flushGroup_cases
  · rw [heq]
  · rw [heq]
    exact List.prefix_append _ _

/-- R18: no word removes a byte from YOQ. -/
theorem State.effectOfDecoded_yoq_prefix (s : State) (d : Decoded) : s.yoq <+: (s.effectOfDecoded d).yoq := by
  by_cases hne : (s.effectOfDecoded d).yoq = s.yoq
  · rw [hne]
  · obtain ⟨i, rfl, ⟨n, v, rfl⟩ | rfl⟩ := State.effectOfDecoded_writes_yoq hne
    · exact s.pushAll_yoq_prefix (pushBits n v)
    · exact s.flushGroup_yoq_prefix

/-- R81: a step other than Reset and TakeByte only appends to YOQ. -/
theorem step_yoq_prefix {s t : State} (h : step s = .next t) (hreset : s.nextTurn ≠ .reset)
    (htake : s.nextTurn ≠ .takeByte) : s.yoq <+: t.yoq := by
  obtain ⟨w, -, rfl⟩ | hframe := step_transfers_or_takes h hreset
  · exact s.dropTurn.effectOfDecoded_yoq_prefix (decode w)
  · rw [hframe.yoq htake]

/-- Settles O37: `resetBlock` writes the reset values; in any other step but a take, BOQ grows by the bits of the word
transferred (`step_appendsBits`), and YOQ only grows (`step_yoq_prefix`). -/
theorem resetEventEmptiesTheBlock : Obligations.ResetEventEmptiesTheBlock := by
  refine ⟨fun s => step_reset, fun s t h hreset hbit hbyte => ⟨?_, ?_⟩⟩
  · exact ⟨_, (step_appendsBits h hreset hbit).boq⟩
  · obtain ⟨vs, hvs⟩ := step_yoq_prefix h hreset hbyte
    exact ⟨vs, hvs.symm⟩

end Sys2Proof.Machine
end

section
/-!
The withdrawal of a presented word (spec/10_state.md, Acceptance; log entry 16).
-/
namespace Sys2Proof.Machine

/-- What a withdrawal writes: the host's words and turns, no field of the block. -/
theorem State.dropTurn_dropCmd (s : State) :
    s.dropTurn.dropCmd = { s with cmds := s.cmds.tail, turns := s.turns.tail } := rfl

/-- A withdraw turn is `dropCmd`, the use of the turn apart. -/
theorem step_withdraw {s : State} (h : s.nextTurn = .withdraw) : step s = .next s.dropTurn.dropCmd :=
  step_eq_runTurn h

/-- Settles O35: the turn's own step (`step_withdraw`) never decodes the word it drops; what it writes is
`State.dropTurn_dropCmd`. -/
theorem withdrawnWordIsNotExecuted : Obligations.WithdrawnWordIsNotExecuted := by
  intro s hwithdraw
  rw [step_withdraw hwithdraw, State.dropTurn_dropCmd]

end Sys2Proof.Machine
end
